-- ==== Sys2Proof/Word.lean ====
section
/-! DEFINITION. The word types of the block, by the widths the spec gives (00_scope.md R8, R9; 30_encoding.md R95). -/

namespace Sys2Proof

/-- One byte: a wire byte, a byte of PBUF, of the ring buffer or of the host memory (20_memory.md R60). -/
abbrev Byte := BitVec 8

/-- A 32-bit operand (OPA, OPB), RDATA, or a host memory address (30_encoding.md R95, 20_memory.md R57). -/
abbrev Word32 := BitVec 32

/-- The checksum's width, and the data bits of one wire byte (30_encoding.md R70, R81). -/
abbrev Bits7 := BitVec 7

end Sys2Proof
end

