-- ==== Sys2Proof/Syntax.lean ====
section
/-! DEFINITION. The 34 operations of spec/opcode_table.json (30_encoding.md R97), the two request ports and the
request word. An operation carries exactly the operand slices R97 names for it: a bit the operation does not use is not part
of it (R99). A count (a width, a size, an index, a length) is a number; its range is `Instr.wellFormed`. -/

namespace Sys2Proof

/-- The two request ports, one per unit (60_exceptions.md R232). -/
inductive Port where
  | packer
  | unpacker
deriving DecidableEq, Repr

/-- One request: the command word and the two operands (30_encoding.md R95). -/
structure Request where
  cw : BitVec 16
  opa : Word32
  opb : Word32
deriving DecidableEq, Repr

/-- The operations, in the order of the opcode map (30_encoding.md R97). -/
inductive Instr where
  /-- P.ADDN, R110: the low `n` bits of `value`. -/
  | pAddN (n : Nat) (value : BitVec 32)
  /-- P.ADD8, R114. -/
  | pAdd8 (value : BitVec 8)
  /-- P.ADD16, R115. -/
  | pAdd16 (value : BitVec 16)
  /-- P.ADD32, R116. -/
  | pAdd32 (value : BitVec 32)
  /-- P.ADDF, R117: the 32-bit pattern of a floating value. -/
  | pAddF (pattern : BitVec 32)
  /-- P.ADDBLK, R118: `size` bytes of the host memory from `addr`. -/
  | pAddBlk (size : Nat) (addr : BitVec 32)
  /-- P.BEGINQ, R130. -/
  | pBeginQ (cmd : BitVec 3) (id : BitVec 4)
  /-- P.BEGINA, R131. -/
  | pBeginA
  /-- P.HBEGINQ, R132. -/
  | pHBeginQ (cmd : BitVec 7)
  /-- P.HBEGINA, R133. -/
  | pHBeginA
  /-- P.END, R134. -/
  | pEnd
  /-- P.HEND, R138. -/
  | pHEnd
  /-- P.LEN, R141. -/
  | pLen
  /-- P.RDBUF, R142. -/
  | pRdBuf (index : Nat)
  /-- P.MKQCTRL, R150. -/
  | pMkQCtrl (id : BitVec 4) (value : BitVec 16)
  /-- P.MKACTRL, R151. -/
  | pMkACtrl (angle moment : BitVec 16)
  /-- P.MKQINFO, R152. -/
  | pMkQInfo (id : BitVec 4)
  /-- P.MKAINFO, R153. -/
  | pMkAInfo (v0 v1 v2 : BitVec 16)
  /-- P.MKQWRITE, R154. -/
  | pMkQWrite (id : BitVec 4) (index : BitVec 16) (value : BitVec 32)
  /-- P.MKAWRITE, R155. -/
  | pMkAWrite (value : BitVec 32)
  /-- P.MKQREAD, R156. -/
  | pMkQRead (id : BitVec 4) (index : BitVec 16)
  /-- P.MKAREAD, R157. -/
  | pMkARead (value : BitVec 32)
  /-- P.MKQFLASH, R158. -/
  | pMkQFlash (id : BitVec 4) (address word : BitVec 32)
  /-- U.RESET, R172. -/
  | uReset (start : BitVec 32) (ptr : BitVec 16)
  /-- U.ID, R173. -/
  | uId
  /-- U.CMD, R174. -/
  | uCmd
  /-- U.HCMD, R175. -/
  | uHCmd
  /-- U.GETU8, R176. -/
  | uGetU8
  /-- U.GETI8, R177. -/
  | uGetI8
  /-- U.GETU16, R178. -/
  | uGetU16
  /-- U.GETI16, R179. -/
  | uGetI16
  /-- U.GETI32, R180. -/
  | uGetI32
  /-- U.GETBLK, R182: `size` bytes to the host memory at `addr`. -/
  | uGetBlk (size : Nat) (addr : BitVec 32)
  /-- U.CHKCRC, R184: `len` is the frame-proper length. -/
  | uChkCrc (len : Nat)
deriving DecidableEq, Repr

/-- The port an operation belongs to (30_encoding.md R96). -/
def Instr.port : Instr → Port
  | .pAddN _ _ => .packer
  | .pAdd8 _ => .packer
  | .pAdd16 _ => .packer
  | .pAdd32 _ => .packer
  | .pAddF _ => .packer
  | .pAddBlk _ _ => .packer
  | .pBeginQ _ _ => .packer
  | .pBeginA => .packer
  | .pHBeginQ _ => .packer
  | .pHBeginA => .packer
  | .pEnd => .packer
  | .pHEnd => .packer
  | .pLen => .packer
  | .pRdBuf _ => .packer
  | .pMkQCtrl _ _ => .packer
  | .pMkACtrl _ _ => .packer
  | .pMkQInfo _ => .packer
  | .pMkAInfo _ _ _ => .packer
  | .pMkQWrite _ _ _ => .packer
  | .pMkAWrite _ => .packer
  | .pMkQRead _ _ => .packer
  | .pMkARead _ => .packer
  | .pMkQFlash _ _ _ => .packer
  | .uReset _ _ => .unpacker
  | .uId => .unpacker
  | .uCmd => .unpacker
  | .uHCmd => .unpacker
  | .uGetU8 => .unpacker
  | .uGetI8 => .unpacker
  | .uGetU16 => .unpacker
  | .uGetI16 => .unpacker
  | .uGetI32 => .unpacker
  | .uGetBlk _ _ => .unpacker
  | .uChkCrc _ => .unpacker

end Sys2Proof
end

