-- ==== Sys2Proof/WellFormed.lean ====
section
/-! DEFINITION. Which operations a request can express: the ranges of the IMM10 subfields that are numbers
(30_encoding.md R100). Every other operand is a bit vector of its slice's width and needs no check. -/

namespace Sys2Proof

/-- The IMM10 subfield of the operation fits its width (30_encoding.md R100, R104). -/
def Instr.wellFormed : Instr → Bool
  | .pAddN n _ => decide (n < 64)
  | .pAddBlk size _ => decide (size < 1024)
  | .pRdBuf index => decide (index < 1024)
  | .uGetBlk size _ => decide (size < 1024)
  | .uChkCrc len => decide (len < 1024)
  | .pAdd8 _ => true
  | .pAdd16 _ => true
  | .pAdd32 _ => true
  | .pAddF _ => true
  | .pBeginQ _ _ => true
  | .pBeginA => true
  | .pHBeginQ _ => true
  | .pHBeginA => true
  | .pEnd => true
  | .pHEnd => true
  | .pLen => true
  | .pMkQCtrl _ _ => true
  | .pMkACtrl _ _ => true
  | .pMkQInfo _ => true
  | .pMkAInfo _ _ _ => true
  | .pMkQWrite _ _ _ => true
  | .pMkAWrite _ => true
  | .pMkQRead _ _ => true
  | .pMkARead _ => true
  | .pMkQFlash _ _ _ => true
  | .uReset _ _ => true
  | .uId => true
  | .uCmd => true
  | .uHCmd => true
  | .uGetU8 => true
  | .uGetI8 => true
  | .uGetU16 => true
  | .uGetI16 => true
  | .uGetI32 => true

end Sys2Proof
end

