-- ==== Sys2Proof/Decode.lean ====
section
/-! DEFINITION. The request word (30_encoding.md Part B): decoding on each port, total and rejecting by name, the encoder,
and the layout in which spec/opcode_table.json's bits are read. -/

namespace Sys2Proof

/-- Why a request encodes no operation of the port it is presented on; each is answered with the status `ILLEGAL`
(60_exceptions.md R222). -/
inductive Reject where
  /-- The opcode belongs to the other unit (30_encoding.md R96). -/
  | otherUnit
  /-- The opcode is assigned to nothing (30_encoding.md R98). -/
  | unassigned
  /-- IMM10 has a 1 in a must-be-zero bit of its format (30_encoding.md R98). -/
  | mustBeZero
deriving DecidableEq, Repr

/-- The six IMM10 formats (30_encoding.md R104). -/
inductive Format where
  | z
  | n
  | ci
  | h
  | i
  | u10
deriving DecidableEq, Repr

/-- The must-be-zero bits of IMM10 in each format (30_encoding.md R104). -/
def Format.zeroMask : Format → BitVec 10
  | .z => 0b1111111111
  | .n => 0b1111000000
  | .ci => 0b1110000000
  | .h => 0b1110000000
  | .i => 0b1111110000
  | .u10 => 0b0000000000

/-- `OP = CW[15:10]` (30_encoding.md R95). -/
def opOf (cw : BitVec 16) : BitVec 6 := cw.extractLsb' 10 6

/-- `IMM10 = CW[9:0]` (30_encoding.md R95). -/
def immOf (cw : BitVec 16) : BitVec 10 := cw.extractLsb' 0 10

/-- The unit `OP[5]` names (30_encoding.md R96). -/
def portOfOp (op : BitVec 6) : Port := if op.getLsbD 5 then .unpacker else .packer

/-- The operation, unless IMM10 sets a must-be-zero bit of its format (30_encoding.md R98). -/
def accept (f : Format) (imm : BitVec 10) (i : Instr) : Except Reject Instr :=
  if imm &&& f.zeroMask = 0 then .ok i else .error .mustBeZero

/-- The Packer's rows of the opcode map (30_encoding.md R97). -/
def decodePacker (op : BitVec 6) (imm : BitVec 10) (opa opb : Word32) : Except Reject Instr :=
  match op.toNat with
  | 0x00 => accept .n imm (.pAddN (imm.extractLsb' 0 6).toNat opa)
  | 0x01 => accept .z imm (.pAdd8 (opa.extractLsb' 0 8))
  | 0x02 => accept .z imm (.pAdd16 (opa.extractLsb' 0 16))
  | 0x03 => accept .z imm (.pAdd32 opa)
  | 0x04 => accept .z imm (.pAddF opa)
  | 0x05 => accept .u10 imm (.pAddBlk imm.toNat opa)
  | 0x08 => accept .ci imm (.pBeginQ (imm.extractLsb' 4 3) (imm.extractLsb' 0 4))
  | 0x09 => accept .z imm .pBeginA
  | 0x0A => accept .h imm (.pHBeginQ (imm.extractLsb' 0 7))
  | 0x0B => accept .z imm .pHBeginA
  | 0x0C => accept .z imm .pEnd
  | 0x0D => accept .z imm .pHEnd
  | 0x0E => accept .z imm .pLen
  | 0x0F => accept .u10 imm (.pRdBuf imm.toNat)
  | 0x10 => accept .i imm (.pMkQCtrl (imm.extractLsb' 0 4) (opa.extractLsb' 0 16))
  | 0x11 => accept .z imm (.pMkACtrl (opa.extractLsb' 0 16) (opb.extractLsb' 0 16))
  | 0x12 => accept .i imm (.pMkQInfo (imm.extractLsb' 0 4))
  | 0x13 => accept .z imm
      (.pMkAInfo (opa.extractLsb' 0 16) (opa.extractLsb' 16 16) (opb.extractLsb' 0 16))
  | 0x14 => accept .i imm (.pMkQWrite (imm.extractLsb' 0 4) (opa.extractLsb' 0 16) opb)
  | 0x15 => accept .z imm (.pMkAWrite opa)
  | 0x16 => accept .i imm (.pMkQRead (imm.extractLsb' 0 4) (opa.extractLsb' 0 16))
  | 0x17 => accept .z imm (.pMkARead opa)
  | 0x18 => accept .i imm (.pMkQFlash (imm.extractLsb' 0 4) opa opb)
  | _ => .error .unassigned

/-- The Unpacker's rows of the opcode map (30_encoding.md R97). -/
def decodeUnpacker (op : BitVec 6) (imm : BitVec 10) (opa opb : Word32) : Except Reject Instr :=
  match op.toNat with
  | 0x20 => accept .z imm (.uReset opa (opb.extractLsb' 0 16))
  | 0x21 => accept .z imm .uId
  | 0x22 => accept .z imm .uCmd
  | 0x23 => accept .z imm .uHCmd
  | 0x24 => accept .z imm .uGetU8
  | 0x25 => accept .z imm .uGetI8
  | 0x26 => accept .z imm .uGetU16
  | 0x27 => accept .z imm .uGetI16
  | 0x28 => accept .z imm .uGetI32
  | 0x29 => accept .u10 imm (.uGetBlk imm.toNat opa)
  | 0x2A => accept .u10 imm (.uChkCrc imm.toNat)
  | _ => .error .unassigned

/-- Decoding a request on a port: each unit decodes only its own opcodes (30_encoding.md R96, R97, R98). -/
def decode (port : Port) (r : Request) : Except Reject Instr :=
  if portOfOp (opOf r.cw) = port then
    match port with
    | .packer => decodePacker (opOf r.cw) (immOf r.cw) r.opa r.opb
    | .unpacker => decodeUnpacker (opOf r.cw) (immOf r.cw) r.opa r.opb
  else .error .otherUnit

/-- The opcode of each operation (30_encoding.md R97). -/
def Instr.opcode : Instr → BitVec 6
  | .pAddN _ _ => 0x00
  | .pAdd8 _ => 0x01
  | .pAdd16 _ => 0x02
  | .pAdd32 _ => 0x03
  | .pAddF _ => 0x04
  | .pAddBlk _ _ => 0x05
  | .pBeginQ _ _ => 0x08
  | .pBeginA => 0x09
  | .pHBeginQ _ => 0x0A
  | .pHBeginA => 0x0B
  | .pEnd => 0x0C
  | .pHEnd => 0x0D
  | .pLen => 0x0E
  | .pRdBuf _ => 0x0F
  | .pMkQCtrl _ _ => 0x10
  | .pMkACtrl _ _ => 0x11
  | .pMkQInfo _ => 0x12
  | .pMkAInfo _ _ _ => 0x13
  | .pMkQWrite _ _ _ => 0x14
  | .pMkAWrite _ => 0x15
  | .pMkQRead _ _ => 0x16
  | .pMkARead _ => 0x17
  | .pMkQFlash _ _ _ => 0x18
  | .uReset _ _ => 0x20
  | .uId => 0x21
  | .uCmd => 0x22
  | .uHCmd => 0x23
  | .uGetU8 => 0x24
  | .uGetI8 => 0x25
  | .uGetU16 => 0x26
  | .uGetI16 => 0x27
  | .uGetI32 => 0x28
  | .uGetBlk _ _ => 0x29
  | .uChkCrc _ => 0x2A

/-- The IMM10 field of each operation, must-be-zero bits 0 (30_encoding.md R104). -/
def Instr.imm : Instr → BitVec 10
  | .pAddN n _ => 0#4 ++ BitVec.ofNat 6 n
  | .pAddBlk size _ => BitVec.ofNat 10 size
  | .pBeginQ cmd id => 0#3 ++ (cmd ++ id)
  | .pHBeginQ cmd => 0#3 ++ cmd
  | .pRdBuf index => BitVec.ofNat 10 index
  | .pMkQCtrl id _ => 0#6 ++ id
  | .pMkQInfo id => 0#6 ++ id
  | .pMkQWrite id _ _ => 0#6 ++ id
  | .pMkQRead id _ => 0#6 ++ id
  | .pMkQFlash id _ _ => 0#6 ++ id
  | .uGetBlk size _ => BitVec.ofNat 10 size
  | .uChkCrc len => BitVec.ofNat 10 len
  | .pAdd8 _ => 0
  | .pAdd16 _ => 0
  | .pAdd32 _ => 0
  | .pAddF _ => 0
  | .pBeginA => 0
  | .pHBeginA => 0
  | .pEnd => 0
  | .pHEnd => 0
  | .pLen => 0
  | .pMkACtrl _ _ => 0
  | .pMkAInfo _ _ _ => 0
  | .pMkAWrite _ => 0
  | .pMkARead _ => 0
  | .uReset _ _ => 0
  | .uId => 0
  | .uCmd => 0
  | .uHCmd => 0
  | .uGetU8 => 0
  | .uGetI8 => 0
  | .uGetU16 => 0
  | .uGetI16 => 0
  | .uGetI32 => 0

/-- The operand OPA of each operation, unused bits 0 (30_encoding.md R97). -/
def Instr.opa : Instr → Word32
  | .pAddN _ v => v
  | .pAdd8 v => v.setWidth 32
  | .pAdd16 v => v.setWidth 32
  | .pAdd32 v => v
  | .pAddF v => v
  | .pAddBlk _ a => a
  | .pMkQCtrl _ v => v.setWidth 32
  | .pMkACtrl angle _ => angle.setWidth 32
  | .pMkAInfo v0 v1 _ => v1 ++ v0
  | .pMkQWrite _ index _ => index.setWidth 32
  | .pMkAWrite v => v
  | .pMkQRead _ index => index.setWidth 32
  | .pMkARead v => v
  | .pMkQFlash _ address _ => address
  | .uReset start _ => start
  | .uGetBlk _ a => a
  | .pBeginQ _ _ => 0
  | .pBeginA => 0
  | .pHBeginQ _ => 0
  | .pHBeginA => 0
  | .pEnd => 0
  | .pHEnd => 0
  | .pLen => 0
  | .pRdBuf _ => 0
  | .pMkQInfo _ => 0
  | .uId => 0
  | .uCmd => 0
  | .uHCmd => 0
  | .uGetU8 => 0
  | .uGetI8 => 0
  | .uGetU16 => 0
  | .uGetI16 => 0
  | .uGetI32 => 0
  | .uChkCrc _ => 0

/-- The operand OPB of each operation, unused bits 0 (30_encoding.md R97). -/
def Instr.opb : Instr → Word32
  | .pMkACtrl _ moment => moment.setWidth 32
  | .pMkAInfo _ _ v2 => v2.setWidth 32
  | .pMkQWrite _ _ v => v
  | .pMkQFlash _ _ word => word
  | .uReset _ ptr => ptr.setWidth 32
  | .pAddN _ _ => 0
  | .pAdd8 _ => 0
  | .pAdd16 _ => 0
  | .pAdd32 _ => 0
  | .pAddF _ => 0
  | .pAddBlk _ _ => 0
  | .pBeginQ _ _ => 0
  | .pBeginA => 0
  | .pHBeginQ _ => 0
  | .pHBeginA => 0
  | .pEnd => 0
  | .pHEnd => 0
  | .pLen => 0
  | .pRdBuf _ => 0
  | .pMkQCtrl _ _ => 0
  | .pMkQInfo _ => 0
  | .pMkAWrite _ => 0
  | .pMkQRead _ _ => 0
  | .pMkARead _ => 0
  | .uId => 0
  | .uCmd => 0
  | .uHCmd => 0
  | .uGetU8 => 0
  | .uGetI8 => 0
  | .uGetU16 => 0
  | .uGetI16 => 0
  | .uGetI32 => 0
  | .uGetBlk _ _ => 0
  | .uChkCrc _ => 0

/-- The request of an operation: `CW = (OP << 10) | IMM10`, OPA, OPB (30_encoding.md R95). -/
def encode (i : Instr) : Request := ⟨i.opcode ++ i.imm, i.opa, i.opb⟩

/-- The request whose bits are `w`, numbered as the opcode table numbers them: the command word lowest, then OPA, then OPB
(DESIGN CHOICE, log 12); bits at and above `nbits` are 0. -/
def requestOfBits (nbits w : Nat) : Request :=
  let v := w % 2 ^ nbits
  ⟨BitVec.ofNat 16 v, BitVec.ofNat 32 (v >>> 16), BitVec.ofNat 32 (v >>> 48)⟩

/-- The port that decodes a command word: the unit `OP[5]` names (30_encoding.md R96). -/
def portOfBits (nbits w : Nat) : Port := portOfOp (opOf (requestOfBits nbits w).cw)

/-- The operation the decoder reads from the table's bits `w`, on the port of the unit its opcode names. -/
def decodeTableWord (nbits w : Nat) : Option Instr :=
  match decode (portOfBits nbits w) (requestOfBits nbits w) with
  | .ok i => some i
  | .error _ => none

end Sys2Proof
end

