-- ==== Sys2Proof/Machine/Checksum.lean ====
section
/-! DEFINITION. The Checksum unit (45_checksum.md): the default CRC-7, combinational (log 4). -/

namespace Sys2Proof.Machine

/-- One bit of `CRC7Update` (45_checksum.md R201). -/
def crc7Bit (crc : Bits7) (b : Bool) : Bits7 :=
  let fb := crc.getLsbD 6 ^^ b
  let shifted := crc <<< 1
  if fb then shifted ^^^ 0x09#7 else shifted

/-- `CRC7Update`: the data bits of one byte, from bit 6 to bit 0; bit 7 is never read (45_checksum.md R201, R202). -/
def crc7Update (crc : Bits7) (b : Byte) : Bits7 :=
  [6, 5, 4, 3, 2, 1, 0].foldl (fun c j => crc7Bit c (b.getLsbD j)) crc

/-- `CHECKSUM` of a byte sequence (45_checksum.md R201). -/
def checksum (bytes : List Byte) : Bits7 := bytes.foldl crc7Update 0

/-- `CHECKSUM2`: the CRC carried from the first segment to the second (45_checksum.md R203). -/
def checksum2 (a b : List Byte) : Bits7 := b.foldl crc7Update (a.foldl crc7Update 0)

end Sys2Proof.Machine
end

