-- ==== Sys2Proof/Config.lean ====
section
/-! DEFINITION. What an implementation fixes (00_scope.md R7), the length ROM (30_encoding.md R92, R93), and the
free values: the bytes the spec leaves at "any value". -/

namespace Sys2Proof.Config

/-- The parameters fixed when the block is built (00_scope.md R7, 10_state.md R32), with the legal ranges R7 gives.
They are data of `State`, so that a statement about every state is a statement about every legal choice of them
(log 2). The codes are kept apart from one another and from `CMD_CONTROL`, which is what makes a length table indexed
by code a function (DEDUCED, log 3, safe). R7 gives the four chosen codes no legal range, and 30_encoding.md R88 and
92_eei_decisions.md D12 call 5, 6 and 7 reserved: the model admits them as chosen codes too, and such a code then has the
length entries of its command (DESIGN CHOICE, log 23, safe). -/
structure Params where
  /-- `PACK_CAP`, the Packer buffer's capacity in bytes. -/
  packCap : Nat
  /-- `RB_CAP`, the ring buffer's physical capacity in bytes; OPEN in the spec. -/
  rbCap : Nat
  /-- `HOST_TERM`, the line terminator P.HEND writes. R7 and 92_eei_decisions.md D15 give it a default and no legal range,
  and 70_reset_and_hazards.md R266 speaks of its framing bit as 0; the model admits every byte, so a value of 0x80 or more
  gives a suffix byte with framing bit 1 (DESIGN CHOICE, log 22, safe). -/
  hostTerm : Byte
  /-- `CMD_INFO`; no legal range in the spec, any of 1 to 7 here, as for the next three (DESIGN CHOICE, log 23). -/
  cmdInfo : BitVec 3
  /-- `CMD_WRITE`. -/
  cmdWrite : BitVec 3
  /-- `CMD_READ`. -/
  cmdRead : BitVec 3
  /-- `CMD_FLASH`. -/
  cmdFlash : BitVec 3
  packCap_legal : 12 ≤ packCap ∧ packCap ≤ 1024
  rbCap_legal : 1 ≤ rbCap ∧ rbCap ≤ 65536
  codes_distinct : [0#3, cmdInfo, cmdWrite, cmdRead, cmdFlash].Nodup
deriving DecidableEq, Repr

/-- `CMD_CONTROL`, settled by the source (00_scope.md R7, 30_encoding.md R88). -/
def cmdControl : BitVec 3 := 0

/-- `MAX_FIELD`, the largest field width of P.ADDN (00_scope.md R7). -/
def maxField : Nat := 32

/-- `IDX_W`, the width of `ptr` (00_scope.md R7). -/
def idxWidth : Nat := 16

/-- The defaults of 00_scope.md R7. `RB_CAP` is OPEN there: 16 is the value the spec's test vectors use
(DESIGN CHOICE, log 2, unsafe for a claim about this one choice). -/
def defaults : Params where
  packCap := 16
  rbCap := 16
  hostTerm := 0x0A
  cmdInfo := 1
  cmdWrite := 2
  cmdRead := 3
  cmdFlash := 4
  packCap_legal := by decide
  rbCap_legal := by decide
  codes_distinct := by decide

/-- `QLEN[c]`, the length of command c's query frame, 0 for a code that no command has (30_encoding.md R92, log 23). -/
def queryLength (p : Params) (c : BitVec 3) : Nat :=
  if c = cmdControl then 5
  else if c = p.cmdInfo then 2
  else if c = p.cmdWrite then 9
  else if c = p.cmdRead then 5
  else if c = p.cmdFlash then 12
  else 0

/-- `ALEN[c]`, the length of command c's answer frame, 0 for a code that no command has (30_encoding.md R93, log 23). -/
def answerLength (p : Params) (c : BitVec 3) : Nat :=
  if c = cmdControl then 6
  else if c = p.cmdInfo then 8
  else if c = p.cmdWrite then 6
  else if c = p.cmdRead then 6
  else if c = p.cmdFlash then 7
  else 0

/-- The content of PBUF byte `k` that reset number `n` left unspecified (10_state.md R39, log 5): a free value. -/
opaque pbufAfterReset : Nat → Nat → Byte

/-- What the `n`-th reading operation of the Unpacker gets for its logical byte `i`, where that byte of the ring buffer is
not valid (20_memory.md R56, 44_unpacker.md R170, R188, log 6): a free value. -/
opaque anyRingByte : Nat → Nat → Byte

/-- The content of the host memory byte at address `a` before anything the model has seen wrote it (10_state.md R41, log 7): a free
value, one for each address, so that every read of a quiet byte gives the same (20_memory.md R60). -/
opaque hostAtStart : Nat → Byte

/-- What the `n`-th reading operation of the Packer gets for the `i`-th host byte it reads, where another agent is writing that byte
(20_memory.md R65, log 7): a free value. -/
opaque anyHostByte : Nat → Nat → Byte

end Sys2Proof.Config
end

