-- ==== Sys2Proof/Machine/State.lean ====
section
/-! DEFINITION. The state of the block and of the memories it reaches (10_state.md, 20_memory.md), the responses
(60_exceptions.md R220), what the outside world can do, and the state after reset. Plain data throughout. -/

namespace Sys2Proof.Machine

/-- A byte memory: the bytes whose value is known, by address, in one canonical form (`Memory.wf`): addresses strictly
rising. An unlisted address has no known value; each of the three memories says what reading it gives: `Packer.byte` (log 5),
`State.ringRead` (log 6), `State.hostContent` (log 7). -/
abbrev Memory := List Host.Cell

/-- The Packer's state (10_state.md R20, R21). -/
structure Packer where
  /-- `PBUF` (20_memory.md R50). -/
  pbuf : Memory
  /-- `cur`: the byte the next stream bit goes into. -/
  cur : BitVec 11
  /-- `off`: how many data bits of byte `cur` are written. -/
  off : BitVec 3
  /-- The model's own: which reset left the unlisted bytes of `PBUF`; selects the free value (log 5, log 14). -/
  resets : Nat
  /-- The model's own: how many operations have read the host memory; selects the free value (log 7, log 14). -/
  hostReads : Nat
deriving DecidableEq, Repr

/-- The Unpacker's state (10_state.md R26 to R28). -/
structure Unpacker where
  /-- `start`: the physical index of logical byte 0. -/
  start : BitVec 16
  /-- `ptr`: the logical byte the next read starts in. -/
  ptr : BitVec 16
  /-- `boff`: how many data bits of logical byte `ptr` are consumed. -/
  boff : BitVec 3
  /-- The model's own: how many operations have read the ring buffer; selects the free value (log 6, log 14). -/
  ringReads : Nat
deriving DecidableEq, Repr

/-- The status of a response (60_exceptions.md R220); the codes 5, 6 and 7 are never produced and have no constructor. -/
inductive Status where
  | ok
  | overflow
  | width
  | illegal
  | range
deriving DecidableEq, Repr

/-- The response that completes an operation: STATUS and RDATA (30_encoding.md R95). -/
structure Response where
  status : Status
  rdata : Word32
deriving DecidableEq, Repr

/-- An act of the receive engine that lands inside an operation (20_memory.md R55): once the acts before it have landed and the
operation has come to logical byte `before`, which it then reads (log 8). -/
structure Landing where
  /-- The first logical byte whose read comes after the act. -/
  before : Nat
  /-- The physical byte of RB. -/
  index : BitVec 16
  /-- The byte the engine has fully written, or none: from now on the byte is not valid (20_memory.md R56). -/
  value : Option Byte
deriving DecidableEq, Repr

/-- What the outside world does to the block, one act at a time (60_exceptions.md R232, R233; log 1, log 8). -/
inductive Input where
  /-- A requester presents a request on a port (60_exceptions.md R232); `acts` is what the receive engine does before the operation
  has completed (20_memory.md R55). -/
  | request (port : Port) (r : Request) (acts : List Landing)
  /-- The receive engine has fully written this byte of the ring buffer, and it is valid (20_memory.md R55, R56). -/
  | ringWrite (index : BitVec 16) (value : Byte)
  /-- This byte of the ring buffer is not valid: it is being written, or has left the live region (20_memory.md R56). -/
  | ringInvalid (index : BitVec 16)
  /-- Another agent has written this byte of the host memory (60_exceptions.md R233). -/
  | hostWrite (addr : BitVec 32) (value : Byte)
  /-- Another agent has begun to write this byte of the host memory; `hostWrite` ends it (20_memory.md R65). -/
  | hostInvalid (addr : BitVec 32)
  /-- The reset input (70_reset_and_hazards.md R250). -/
  | reset
deriving DecidableEq, Repr

/-- The whole machine. -/
structure State where
  /-- The parameters; no step changes them (70_reset_and_hazards.md R252, log 2). -/
  par : Config.Params
  packer : Packer
  unpacker : Unpacker
  /-- The ring buffer RB: the bytes that are valid (20_memory.md R53, R56). -/
  rb : Memory
  /-- The host memory HM: the bytes whose value is known (20_memory.md R57). -/
  hm : Memory
  /-- The bytes of HM another agent is writing, addresses strictly rising (20_memory.md R65, log 7). -/
  hmBusy : List Nat
  /-- What the receive engine does during the operation under way, the first act first (20_memory.md R55, log 8); empty between
  operations. -/
  landing : List Landing
  /-- The response on the Packer's port, since reset (log 9). -/
  pResp : Option Response
  /-- The response on the Unpacker's port, since reset (log 9). -/
  uResp : Option Response
  /-- What the outside world does next, the nearest act first (log 1). -/
  inputs : List Input
deriving DecidableEq, Repr

/-- Why a step stops. No operation reaches one: the block answers every failure with a status (60_exceptions.md R224, R227). -/
inductive Fault where
  /-- Raised by `Input.ringWrite`, `Input.ringInvalid` and a `Landing` at a physical index that RB does not have
  (20_memory.md R53: 0 ≤ p < RB_CAP). Safe: the spec gives such an act no meaning (log 10). -/
  | noSuchRingByte
deriving DecidableEq, Repr

/-- Why an operation has no meaning in the model. -/
inductive Refusal where
  /-- Raised by `exec` for an operation with no meaning yet; no operation of this model is left so. Safe. -/
  | notModelled (mnemonic : String)
deriving DecidableEq, Repr

/-- The machine right after reset (10_state.md R38 to R41, 70_reset_and_hazards.md R250): cursors 0; PBUF
unspecified and RB and HM whatever was left in them, so nothing is listed. Nothing is presented and nothing answered
(DESIGN CHOICE, log 1, log 9), and the parameters are the defaults, with RB_CAP = 16 (DESIGN CHOICE, log 2, unsafe). -/
def State.reset : State where
  par := Config.defaults
  packer := ⟨[], 0, 0, 0, 0⟩
  unpacker := ⟨0, 0, 0, 0⟩
  rb := []
  hm := []
  hmBusy := []
  landing := []
  pResp := none
  uResp := none
  inputs := []

end Sys2Proof.Machine
end

