-- ==== Sys2Proof/Machine/Flags.lean ====
section
/-! DEFINITION. The block has no flags (10_state.md R34). What it computes in their place is the STATUS of a response: the
status codes (60_exceptions.md R220) and the checks that decide them. -/

namespace Sys2Proof.Machine

/-- The 3-bit code of a status (60_exceptions.md R220). -/
def Status.code : Status → BitVec 3
  | .ok => 0
  | .overflow => 1
  | .width => 2
  | .illegal => 3
  | .range => 4

/-- `pos = 7*cur + off` (10_state.md R22). -/
def Packer.pos (pk : Packer) : Nat := 7 * pk.cur.toNat + pk.off.toNat

/-- `length = cur + (off != 0 ? 1 : 0)`, the filled length (10_state.md R23). -/
def Packer.length (pk : Packer) : Nat := pk.cur.toNat + (if pk.off = 0 then 0 else 1)

/-- `upos = 7*ptr + boff` (10_state.md R28). -/
def Unpacker.pos (up : Unpacker) : Nat := 7 * up.ptr.toNat + up.boff.toNat

/-- How many bytes `bits` stream bits take: `ceil(bits / 7)` (00_scope.md R9, 41_packer_fields.md R112). -/
def bytesFor (bits : Nat) : Nat := (bits + 6) / 7

/-- The room check of an operation that deposits `nb` stream bits (41_packer_fields.md R112). -/
def Packer.hasRoom (pk : Packer) (cap nb : Nat) : Bool := decide (bytesFor (pk.pos + nb) ≤ cap)

/-- The room check of an end operation that writes `m` whole bytes after the last one touched: `m` is 1 for P.END and 3 for P.HEND
(42_packer_framing.md R136). -/
def Packer.hasRoomAfter (pk : Packer) (cap m : Nat) : Bool := decide (pk.length + m ≤ cap)

/-- The widths P.ADDN accepts (41_packer_fields.md R110). -/
def legalWidth (n : Nat) : Bool := decide (n ≠ 0 ∧ n ≤ Config.maxField)

/-- Reading `n` stream bits from `q` would leave `ptr` beyond its 16 bits (44_unpacker.md R181, R182). -/
def pastCursorEnd (q n : Nat) : Bool := decide ((q + n) / 7 > 2 ^ Config.idxWidth - 1)

end Sys2Proof.Machine
end

