-- ==== Sys2Proof/Machine/Operands.lean ====
section
/-! DEFINITION. Operand values and bit fields: where a stream bit lies in the bytes of a frame (30_encoding.md R72), the
header fields (R76), the framing bit (R70), and reading a field back, most significant bit first (44_unpacker.md R181). -/

namespace Sys2Proof.Machine

/-- The byte with bit `i` set to `v`: `PBUF[k][i] <- v` of 41_packer_fields.md R111. -/
def setBit (b : Byte) (i : Nat) (v : Bool) : Byte :=
  if v then b ||| (1#8 <<< i) else b &&& ~~~(1#8 <<< i)

/-- The framing bit of byte `k`, with the data bits 0 (30_encoding.md R70, 41_packer_fields.md R111). -/
def framingByte (k : Nat) : Byte := if k = 0 then 0x00 else 0x80

/-- The device-addressed header `(cmd << 4) | id` (30_encoding.md R76). -/
def deviceHeader (cmd : BitVec 3) (id : BitVec 4) : Bits7 := cmd ++ id

/-- Stream bit `k` of the bytes `L 0, L 1, …`: data bit `6 - (k mod 7)` of byte `k div 7` (30_encoding.md R72). -/
def slotBit (L : Nat → Byte) (k : Nat) : Bool := (L (k / 7)).getLsbD (6 - k % 7)

/-- The `n` stream bits of `L` from position `q`, the first one most significant: the loop of `ReadBits`
(44_unpacker.md R181). -/
def readBits (L : Nat → Byte) (q : Nat) : (n : Nat) → BitVec n
  | 0 => 0#0
  | n + 1 => (readBits L q n).concat (slotBit L (q + n))

/-- A strictly rising list of addresses with `k` in it. -/
def insertAddress (k : Nat) : List Nat → List Nat
  | [] => [k]
  | a :: l => if k < a then k :: a :: l else if k = a then a :: l else a :: insertAddress k l

/-- The host address `trunc_32(addr + i)` (20_memory.md R57). -/
def hostAddress (addr : Word32) (i : Nat) : Nat := (addr.toNat + i) % 2 ^ 32

end Sys2Proof.Machine
end

