-- ==== Sys2Proof/Machine/Ops.lean ====
section
/-! DEFINITION. The named operations the meanings are made of: over a byte memory, over the Packer's stream, over the ring
buffer and the host memory, and the two ways an operation completes. Raising a status is the block's whole exception
machinery: there is no trap to take and none to return from (60_exceptions.md R227, R228). -/

namespace Sys2Proof.Machine

/-! ### A byte memory -/

/-- The known value of an address, if any. -/
def Memory.read : Memory → Nat → Option Byte
  | [], _ => none
  | (a, b) :: m, k => if k = a then some b else Memory.read m k

/-- The memory with address `k` known to hold `v`. -/
def Memory.write : Memory → Nat → Byte → Memory
  | [], k, v => [(k, v)]
  | (a, b) :: m, k, v =>
    if k < a then (k, v) :: (a, b) :: m
    else if k = a then (k, v) :: m
    else (a, b) :: Memory.write m k v

/-- The memory with the value of address `k` no longer known. -/
def Memory.forget (m : Memory) (k : Nat) : Memory := m.filter fun c => decide (c.1 ≠ k)

/-- The canonical form of a memory of `size` bytes: addresses strictly rising, all below `size`. -/
abbrev Memory.wf (m : Memory) (size : Nat) : Prop :=
  (m.map Prod.fst).Pairwise (· < ·) ∧ ∀ c ∈ m, c.1 < size

/-! ### Completing an operation -/

/-- The state with this response on this port: `respond(status, data)` (00_scope.md R10). -/
def State.answer (s : State) (port : Port) (status : Status) (rdata : Word32) : State :=
  match port with
  | .packer => { s with pResp := some ⟨status, rdata⟩ }
  | .unpacker => { s with uResp := some ⟨status, rdata⟩ }

/-- `raise status`: the response `(status, 0)`, and no state written (00_scope.md R10, 60_exceptions.md R224). -/
def State.raise (s : State) (port : Port) (status : Status) : Host.Outcome State Fault Refusal :=
  .next (s.answer port status 0)

/-- A Packer operation that ends in this new Packer state, or in this failure with nothing written
(00_scope.md R11). -/
def State.finishPacker (s : State) (r : Except Status Packer) : Host.Outcome State Fault Refusal :=
  match r with
  | .ok pk => .next ({ s with packer := pk }.answer .packer .ok 0)
  | .error status => s.raise .packer status

/-! ### The Packer's stream -/

/-- `PBUF[k]`; a byte nothing has written since reset is unspecified: a free value (10_state.md R39, log 5). -/
def Packer.byte (pk : Packer) (k : Nat) : Byte :=
  (Memory.read pk.pbuf k).getD (Config.pbufAfterReset pk.resets k)

/-- `PBUF[0..c-1]`. -/
def Packer.prefixBytes (pk : Packer) (c : Nat) : List Byte := (List.range c).map pk.byte

/-- `Deposit`: append one stream bit (41_packer_fields.md R111). -/
def Packer.deposit (pk : Packer) (bit : Bool) : Packer :=
  let k := pk.cur.toNat
  let old := if pk.off = 0 then framingByte k else pk.byte k
  let pbuf := Memory.write pk.pbuf k (setBit old (6 - pk.off.toNat) bit)
  if pk.off = 6 then { pk with pbuf := pbuf, cur := pk.cur + 1, off := 0 }
  else { pk with pbuf := pbuf, off := pk.off + 1 }

/-- `for j = n-1 downto 0: Deposit(v[j])` (41_packer_fields.md R110). -/
def Packer.depositField {w : Nat} (pk : Packer) (v : BitVec w) : (n : Nat) → Packer
  | 0 => pk
  | n + 1 => Packer.depositField (pk.deposit (v.getLsbD n)) v n

/-- Deposit each byte of a block as an 8-bit field (41_packer_fields.md R118). -/
def Packer.depositBytes (pk : Packer) (bytes : List Byte) : Packer :=
  bytes.foldl (fun p b => p.depositField b 8) pk

/-- Add an `n`-bit field: the room check, then the deposits (41_packer_fields.md R110, R112). -/
def Packer.addField {w : Nat} (pk : Packer) (cap : Nat) (v : BitVec w) (n : Nat) : Except Status Packer :=
  if pk.hasRoom cap n then .ok (pk.depositField v n) else .error .overflow

/-- `cur <- 0; off <- 0`: what every begin operation starts with (42_packer_framing.md R131). -/
def Packer.rewind (pk : Packer) : Packer := { pk with cur := 0, off := 0 }

/-- Begin a query with this 7-bit header (42_packer_framing.md R130, R132). -/
def Packer.beginHeader (pk : Packer) (hdr : Bits7) : Packer := pk.rewind.depositField hdr 7

/-- Byte `c` as the checksum byte of bytes `0..c-1` (42_packer_framing.md R134). -/
def Packer.writeChecksum (pk : Packer) (c : Nat) : Memory :=
  Memory.write pk.pbuf c (framingByte c ||| (checksum (pk.prefixBytes c)).setWidth 8)

/-- Finish a frame (42_packer_framing.md R134, R136). -/
def Packer.endFrame (pk : Packer) (cap : Nat) : Except Status Packer :=
  let c := pk.length
  if pk.hasRoomAfter cap 1 then
    .ok { pk with pbuf := pk.writeChecksum c, cur := BitVec.ofNat 11 (c + 1), off := 0 }
  else .error .overflow

/-- Finish a host frame: the checksum byte, then the terminator and a zero byte, written raw (42_packer_framing.md R138). -/
def Packer.endHostFrame (pk : Packer) (cap : Nat) (term : Byte) : Except Status Packer :=
  let c := pk.length
  if pk.hasRoomAfter cap 3 then
    .ok { pk with
      pbuf := Memory.write (Memory.write (pk.writeChecksum c) (c + 1) term) (c + 2) 0x00
      cur := BitVec.ofNat 11 (c + 3)
      off := 0 }
  else .error .overflow

/-! ### The host memory -/

/-- The content of the host memory byte at address `a`: what the last write of it left, or, before any, a free value of that address
(20_memory.md R57, R60, 10_state.md R41, log 7). -/
def State.hostContent (s : State) (a : Nat) : Byte := (Memory.read s.hm a).getD (Config.hostAtStart a)

/-- `MemRead(trunc_32(addr + i), 1)` as the `i`-th byte of one operation: the content of the byte, or, while another agent is writing it,
a free value (20_memory.md R57, R60, R65, log 7). -/
def State.hostByte (s : State) (addr : Word32) (i : Nat) : Byte :=
  if hostAddress addr i ∈ s.hmBusy then Config.anyHostByte s.packer.hostReads i
  else s.hostContent (hostAddress addr i)

/-- The `size` bytes of the host memory from `addr`, in increasing address order (20_memory.md R58). -/
def State.hostBlock (s : State) (addr : Word32) (size : Nat) : List Byte :=
  (List.range size).map (s.hostByte addr)

/-- `MemWrite` of `size` bytes from `addr`, in increasing address order (20_memory.md R57, R65). -/
def Memory.writeBlock (m : Memory) (addr : Word32) (byte : Nat → Byte) : (size : Nat) → Memory
  | 0 => m
  | size + 1 => Memory.write (Memory.writeBlock m addr byte size) (hostAddress addr size) (byte size)

/-! ### The ring buffer -/

/-- The ring buffer after one act of the receive engine (20_memory.md R55, R56, log 11). -/
def Landing.apply (rb : Memory) (a : Landing) : Memory :=
  match a.value with
  | some v => Memory.write rb a.index.toNat v
  | none => Memory.forget rb a.index.toNat

/-- The ring buffer after these acts of the receive engine, in order. -/
def Memory.afterActs (rb : Memory) (acts : List Landing) : Memory := acts.foldl Landing.apply rb

/-- The ring buffer at the moment the operation under way reads logical byte `i`: the acts that have landed by then have taken
effect (20_memory.md R55, R60, log 8). -/
def State.ringAt (s : State) (i : Nat) : Memory :=
  Memory.afterActs s.rb (s.landing.takeWhile fun a => decide (a.before ≤ i))

/-- `RBRead(p)` as logical byte `i` of one operation: the byte of the ring buffer at that moment if it is valid, else a free value,
the same for every bit this operation takes from it (20_memory.md R53, R55, R56, 44_unpacker.md R170, R188, log 6). -/
def State.ringRead (s : State) (i p : Nat) : Byte :=
  (Memory.read (s.ringAt i) p).getD (Config.anyRingByte s.unpacker.ringReads i)

/-- `L(i) = RBRead((start + i) mod RB_CAP)` (44_unpacker.md R171). -/
def State.logicalByte (s : State) (i : Nat) : Byte :=
  s.ringRead i ((s.unpacker.start.toNat + i) % s.par.rbCap)

/-- One more operation of the Unpacker has read the ring buffer (the model's own counter, log 6). -/
def Unpacker.countRead (up : Unpacker) : Unpacker := { up with ringReads := up.ringReads + 1 }

/-- The cursor at stream position `k` (44_unpacker.md R181). -/
def Unpacker.seek (up : Unpacker) (k : Nat) : Unpacker :=
  { up with ptr := BitVec.ofNat 16 (k / 7), boff := BitVec.ofNat 3 (k % 7) }

/-- A header peek: a response made of logical byte 0, no register changed (44_unpacker.md R173 to R175). -/
def State.peekHeader (s : State) (f : Byte → Word32) : Host.Outcome State Fault Refusal :=
  .next ({ s with unpacker := s.unpacker.countRead }.answer .unpacker .ok (f (s.logicalByte 0)))

/-- A field reader: `ReadBits(n)`, its `RANGE` check first, and the response made of the field
(44_unpacker.md R181, R176 to R180). -/
def State.readField (s : State) (n : Nat) (extend : BitVec n → Word32) : Host.Outcome State Fault Refusal :=
  let q := s.unpacker.pos
  if pastCursorEnd q n then s.raise .unpacker .range
  else
    .next ({ s with unpacker := (s.unpacker.seek (q + n)).countRead }.answer .unpacker .ok
      (extend (readBits s.logicalByte q n)))

/-- The first physical run of the covered bytes: `start .. min(e, RB_CAP) - 1` (44_unpacker.md R184). -/
def State.firstRun (s : State) (n : Nat) : List Byte :=
  let start := s.unpacker.start.toNat
  (List.range (min (start + n) s.par.rbCap - start)).map fun i => s.ringRead i (start + i)

/-- The second physical run: `0 .. e - RB_CAP - 1`, empty unless the range wraps (44_unpacker.md R184). -/
def State.secondRun (s : State) (n : Nat) : List Byte :=
  let start := s.unpacker.start.toNat
  (List.range (start + n - s.par.rbCap)).map fun p => s.ringRead (s.par.rbCap - start + p) p

/-- The checksum comparison of a frame of `len` bytes, `1 ≤ len ≤ RB_CAP` (44_unpacker.md R184). -/
def State.frameMatches (s : State) (len : Nat) : Bool :=
  let n := len - 1
  decide (checksum2 (s.firstRun n) (s.secondRun n) = (s.logicalByte n).setWidth 7)

end Sys2Proof.Machine
end

