-- ==== Sys2Proof/Machine/PackerBuild.lean ====
section
/-! DEFINITION. The Packer's composite builders (43_packer_composite.md): each is one atomic operation equal to the
sequence of primitives its rule lists (R159). A primitive of the sequence that failed would make the builder fail as a whole;
none can, since PACK_CAP is at least 12 (R159). -/

namespace Sys2Proof.Machine

/-- P.MKQCTRL: `P.BEGINQ CMD_CONTROL, id; P.ADD16 value; P.END` (R150). -/
def execPMkQCtrl (id : BitVec 4) (value : BitVec 16) (s : State) : Host.Outcome State Fault Refusal :=
  s.finishPacker do
    let pk ← (s.packer.beginHeader (deviceHeader Config.cmdControl id)).addField s.par.packCap value 16
    pk.endFrame s.par.packCap

/-- P.MKACTRL: `P.BEGINA; P.ADD16 angle; P.ADD16 moment; P.END` (R151). -/
def execPMkACtrl (angle moment : BitVec 16) (s : State) : Host.Outcome State Fault Refusal :=
  s.finishPacker do
    let pk ← s.packer.rewind.addField s.par.packCap angle 16
    let pk ← pk.addField s.par.packCap moment 16
    pk.endFrame s.par.packCap

/-- P.MKQINFO: `P.BEGINQ CMD_INFO, id; P.END` (R152). -/
def execPMkQInfo (id : BitVec 4) (s : State) : Host.Outcome State Fault Refusal :=
  s.finishPacker ((s.packer.beginHeader (deviceHeader s.par.cmdInfo id)).endFrame s.par.packCap)

/-- P.MKAINFO: `P.BEGINA; P.ADD16 v0; P.ADD16 v1; P.ADD16 v2; P.END` (R153). -/
def execPMkAInfo (v0 v1 v2 : BitVec 16) (s : State) : Host.Outcome State Fault Refusal :=
  s.finishPacker do
    let pk ← s.packer.rewind.addField s.par.packCap v0 16
    let pk ← pk.addField s.par.packCap v1 16
    let pk ← pk.addField s.par.packCap v2 16
    pk.endFrame s.par.packCap

/-- P.MKQWRITE: `P.BEGINQ CMD_WRITE, id; P.ADD16 index; P.ADD32 value; P.END` (R154). -/
def execPMkQWrite (id : BitVec 4) (index : BitVec 16) (value : BitVec 32) (s : State) :
    Host.Outcome State Fault Refusal :=
  s.finishPacker do
    let pk ← (s.packer.beginHeader (deviceHeader s.par.cmdWrite id)).addField s.par.packCap index 16
    let pk ← pk.addField s.par.packCap value 32
    pk.endFrame s.par.packCap

/-- P.MKAWRITE: `P.BEGINA; P.ADD32 value; P.END` (R155). -/
def execPMkAWrite (value : BitVec 32) (s : State) : Host.Outcome State Fault Refusal :=
  s.finishPacker do
    let pk ← s.packer.rewind.addField s.par.packCap value 32
    pk.endFrame s.par.packCap

/-- P.MKQREAD: `P.BEGINQ CMD_READ, id; P.ADD16 index; P.END` (R156). -/
def execPMkQRead (id : BitVec 4) (index : BitVec 16) (s : State) : Host.Outcome State Fault Refusal :=
  s.finishPacker do
    let pk ← (s.packer.beginHeader (deviceHeader s.par.cmdRead id)).addField s.par.packCap index 16
    pk.endFrame s.par.packCap

/-- P.MKAREAD: `P.BEGINA; P.ADD32 value; P.END` (R157). -/
def execPMkARead (value : BitVec 32) (s : State) : Host.Outcome State Fault Refusal :=
  s.finishPacker do
    let pk ← s.packer.rewind.addField s.par.packCap value 32
    pk.endFrame s.par.packCap

/-- P.MKQFLASH: `P.BEGINQ CMD_FLASH, id; P.ADD32 address; P.ADD32 word; P.END` (R158). -/
def execPMkQFlash (id : BitVec 4) (address word : BitVec 32) (s : State) : Host.Outcome State Fault Refusal :=
  s.finishPacker do
    let pk ← (s.packer.beginHeader (deviceHeader s.par.cmdFlash id)).addField s.par.packCap address 32
    let pk ← pk.addField s.par.packCap word 32
    pk.endFrame s.par.packCap

end Sys2Proof.Machine
end

