-- ==== Sys2Proof/Machine/PackerFields.lean ====
section
/-! DEFINITION. The Packer's field operations (41_packer_fields.md). Their `ILLEGAL` check is the decoder's
(30_encoding.md R98), which runs before any of them (60_exceptions.md R225). -/

namespace Sys2Proof.Machine

/-- P.ADDN: `WIDTH` for an illegal width, then `OVERFLOW` for want of room, then the low `n` bits of the value (R110). -/
def execPAddN (n : Nat) (value : BitVec 32) (s : State) : Host.Outcome State Fault Refusal :=
  if legalWidth n then s.finishPacker (s.packer.addField s.par.packCap value n)
  else s.raise .packer .width

/-- P.ADD8 (R114). -/
def execPAdd8 (value : BitVec 8) (s : State) : Host.Outcome State Fault Refusal :=
  s.finishPacker (s.packer.addField s.par.packCap value 8)

/-- P.ADD16 (R115). -/
def execPAdd16 (value : BitVec 16) (s : State) : Host.Outcome State Fault Refusal :=
  s.finishPacker (s.packer.addField s.par.packCap value 16)

/-- P.ADD32 (R116). -/
def execPAdd32 (value : BitVec 32) (s : State) : Host.Outcome State Fault Refusal :=
  s.finishPacker (s.packer.addField s.par.packCap value 32)

/-- P.ADDF: the pattern is a 32-bit field, never interpreted (R117, 30_encoding.md R75). -/
def execPAddF (pattern : BitVec 32) (s : State) : Host.Outcome State Fault Refusal :=
  s.finishPacker (s.packer.addField s.par.packCap pattern 32)

/-- P.ADDBLK: the room check for the whole block before any host byte is read, then each byte as an 8-bit field (R118). -/
def execPAddBlk (size : Nat) (addr : BitVec 32) (s : State) : Host.Outcome State Fault Refusal :=
  if s.packer.hasRoom s.par.packCap (8 * size) then
    let pk := s.packer.depositBytes (s.hostBlock addr size)
    s.finishPacker (.ok { pk with hostReads := pk.hostReads + 1 })
  else s.raise .packer .overflow

end Sys2Proof.Machine
end

