-- ==== Sys2Proof/Machine/PackerFraming.lean ====
section
/-! DEFINITION. The Packer's framing and readout operations (42_packer_framing.md). -/

namespace Sys2Proof.Machine

/-- P.BEGINQ (R130). -/
def execPBeginQ (cmd : BitVec 3) (id : BitVec 4) (s : State) : Host.Outcome State Fault Refusal :=
  s.finishPacker (.ok (s.packer.beginHeader (deviceHeader cmd id)))

/-- P.BEGINA: no byte is written (R131; UNVERIFIED by the spec's own account, log 13). -/
def execPBeginA (s : State) : Host.Outcome State Fault Refusal :=
  s.finishPacker (.ok s.packer.rewind)

/-- P.HBEGINQ (R132). -/
def execPHBeginQ (cmd : BitVec 7) (s : State) : Host.Outcome State Fault Refusal :=
  s.finishPacker (.ok (s.packer.beginHeader cmd))

/-- P.HBEGINA, identical in effect to P.BEGINA (R133, log 13). -/
def execPHBeginA (s : State) : Host.Outcome State Fault Refusal :=
  s.finishPacker (.ok s.packer.rewind)

/-- P.END (R134). -/
def execPEnd (s : State) : Host.Outcome State Fault Refusal :=
  s.finishPacker (s.packer.endFrame s.par.packCap)

/-- P.HEND (R138). -/
def execPHEnd (s : State) : Host.Outcome State Fault Refusal :=
  s.finishPacker (s.packer.endHostFrame s.par.packCap s.par.hostTerm)

/-- P.LEN (R141). -/
def execPLen (s : State) : Host.Outcome State Fault Refusal :=
  .next (s.answer .packer .ok (BitVec.ofNat 32 s.packer.length))

/-- P.RDBUF: `RANGE` outside the filled prefix (R142). -/
def execPRdBuf (index : Nat) (s : State) : Host.Outcome State Fault Refusal :=
  if s.packer.length ≤ index then s.raise .packer .range
  else .next (s.answer .packer .ok ((s.packer.byte index).setWidth 32))

end Sys2Proof.Machine
end

