-- ==== Sys2Proof/Machine/Unpack.lean ====
section
/-! DEFINITION. The Unpacker's operations (44_unpacker.md). -/

namespace Sys2Proof.Machine

/-- U.RESET: relocate the origin and the cursor; no byte is read (R172). -/
def execUReset (start : BitVec 32) (ptr : BitVec 16) (s : State) : Host.Outcome State Fault Refusal :=
  .next ({ s with unpacker := { s.unpacker with
      start := BitVec.ofNat 16 (start.toNat % s.par.rbCap), ptr := ptr, boff := 0 } }.answer .unpacker .ok 0)

/-- U.ID: `L(0)[3:0]` (R173). -/
def execUId (s : State) : Host.Outcome State Fault Refusal :=
  s.peekHeader fun b => (b.extractLsb' 0 4).setWidth 32

/-- U.CMD: `L(0)[6:4]` (R174). -/
def execUCmd (s : State) : Host.Outcome State Fault Refusal :=
  s.peekHeader fun b => (b.extractLsb' 4 3).setWidth 32

/-- U.HCMD: all eight bits of `L(0)` (R175). -/
def execUHCmd (s : State) : Host.Outcome State Fault Refusal :=
  s.peekHeader fun b => b.setWidth 32

/-- U.GETU8 (R176). -/
def execUGetU8 (s : State) : Host.Outcome State Fault Refusal :=
  s.readField 8 (·.setWidth 32)

/-- U.GETI8 (R177). -/
def execUGetI8 (s : State) : Host.Outcome State Fault Refusal :=
  s.readField 8 (·.signExtend 32)

/-- U.GETU16 (R178). -/
def execUGetU16 (s : State) : Host.Outcome State Fault Refusal :=
  s.readField 16 (·.setWidth 32)

/-- U.GETI16 (R179). -/
def execUGetI16 (s : State) : Host.Outcome State Fault Refusal :=
  s.readField 16 (·.signExtend 32)

/-- U.GETI32 (R180). -/
def execUGetI32 (s : State) : Host.Outcome State Fault Refusal :=
  s.readField 32 id

/-- U.GETBLK: the `RANGE` check for the whole block, then `size` 8-bit fields to the host memory (R182). -/
def execUGetBlk (size : Nat) (addr : BitVec 32) (s : State) : Host.Outcome State Fault Refusal :=
  let q := s.unpacker.pos
  if pastCursorEnd q (8 * size) then s.raise .unpacker .range
  else
    .next ({ s with
      hm := Memory.writeBlock s.hm addr (fun i => readBits s.logicalByte (q + 8 * i) 8) size
      unpacker := (s.unpacker.seek (q + 8 * size)).countRead }.answer .unpacker .ok 0)

/-- U.CHKCRC: 0 for a length the ring cannot hold, else whether the checksum matches; always `OK` (R184). -/
def execUChkCrc (len : Nat) (s : State) : Host.Outcome State Fault Refusal :=
  if len = 0 ∨ s.par.rbCap < len then .next (s.answer .unpacker .ok 0)
  else
    .next ({ s with unpacker := s.unpacker.countRead }.answer .unpacker .ok
      (if s.frameMatches len then 1 else 0))

end Sys2Proof.Machine
end

