-- ==== Sys2Proof/Machine/Dispatch.lean ====
section
/-! DEFINITION. One arm per operation of spec/opcode_table.json. -/

namespace Sys2Proof.Machine

def exec (i : Instr) (s : State) : Host.Outcome State Fault Refusal :=
  match i with
  | .pAddN n value => Sys2Proof.Machine.execPAddN n value s
  | .pAdd8 value => Sys2Proof.Machine.execPAdd8 value s
  | .pAdd16 value => Sys2Proof.Machine.execPAdd16 value s
  | .pAdd32 value => Sys2Proof.Machine.execPAdd32 value s
  | .pAddF pattern => Sys2Proof.Machine.execPAddF pattern s
  | .pAddBlk size addr => Sys2Proof.Machine.execPAddBlk size addr s
  | .pBeginQ cmd id => Sys2Proof.Machine.execPBeginQ cmd id s
  | .pBeginA => Sys2Proof.Machine.execPBeginA s
  | .pHBeginQ cmd => Sys2Proof.Machine.execPHBeginQ cmd s
  | .pHBeginA => Sys2Proof.Machine.execPHBeginA s
  | .pEnd => Sys2Proof.Machine.execPEnd s
  | .pHEnd => Sys2Proof.Machine.execPHEnd s
  | .pLen => Sys2Proof.Machine.execPLen s
  | .pRdBuf index => Sys2Proof.Machine.execPRdBuf index s
  | .pMkQCtrl id value => Sys2Proof.Machine.execPMkQCtrl id value s
  | .pMkACtrl angle moment => Sys2Proof.Machine.execPMkACtrl angle moment s
  | .pMkQInfo id => Sys2Proof.Machine.execPMkQInfo id s
  | .pMkAInfo v0 v1 v2 => Sys2Proof.Machine.execPMkAInfo v0 v1 v2 s
  | .pMkQWrite id index value => Sys2Proof.Machine.execPMkQWrite id index value s
  | .pMkAWrite value => Sys2Proof.Machine.execPMkAWrite value s
  | .pMkQRead id index => Sys2Proof.Machine.execPMkQRead id index s
  | .pMkARead value => Sys2Proof.Machine.execPMkARead value s
  | .pMkQFlash id address word => Sys2Proof.Machine.execPMkQFlash id address word s
  | .uReset start ptr => Sys2Proof.Machine.execUReset start ptr s
  | .uId => Sys2Proof.Machine.execUId s
  | .uCmd => Sys2Proof.Machine.execUCmd s
  | .uHCmd => Sys2Proof.Machine.execUHCmd s
  | .uGetU8 => Sys2Proof.Machine.execUGetU8 s
  | .uGetI8 => Sys2Proof.Machine.execUGetI8 s
  | .uGetU16 => Sys2Proof.Machine.execUGetU16 s
  | .uGetI16 => Sys2Proof.Machine.execUGetI16 s
  | .uGetI32 => Sys2Proof.Machine.execUGetI32 s
  | .uGetBlk size addr => Sys2Proof.Machine.execUGetBlk size addr s
  | .uChkCrc len => Sys2Proof.Machine.execUChkCrc len s

end Sys2Proof.Machine
end

