-- ==== Sys2Proof/Machine/Inputs.lean ====
section
/-! DEFINITION. What the outside world does between operations (60_exceptions.md R233), and the receive engine during one
(20_memory.md R55): the receive engine, other agents on the host memory, the reset input, and a request that encodes no operation. -/

namespace Sys2Proof.Machine

/-- A request that encodes no operation of its port: `ILLEGAL`, no state written (60_exceptions.md R222, R224). -/
def answerIllegal (port : Port) (s : State) : Host.Outcome State Fault Refusal :=
  s.raise port .illegal

/-- The receive engine has fully written a byte, which is valid from now on (20_memory.md R55, R56; log 10, log 11). -/
def engineWrites (index : BitVec 16) (value : Byte) (s : State) : Host.Outcome State Fault Refusal :=
  if index.toNat < s.par.rbCap then .next { s with rb := Memory.write s.rb index.toNat value }
  else .fault .noSuchRingByte

/-- A byte of the ring buffer is not valid any more (20_memory.md R56; log 10, log 11). -/
def engineInvalidates (index : BitVec 16) (s : State) : Host.Outcome State Fault Refusal :=
  if index.toNat < s.par.rbCap then .next { s with rb := Memory.forget s.rb index.toNat }
  else .fault .noSuchRingByte

/-- An operation has completed: what the receive engine did during it has all landed (20_memory.md R55, log 8). -/
def settle : Host.Outcome State Fault Refusal → Host.Outcome State Fault Refusal
  | .next t => .next { t with rb := Memory.afterActs t.rb t.landing, landing := [] }
  | .fault f => .fault f
  | .refused r => .refused r

/-- An operation during which the receive engine does these acts (20_memory.md R55; log 8, log 10). -/
def runDuring (acts : List Landing) (run : State → Host.Outcome State Fault Refusal) (s : State) :
    Host.Outcome State Fault Refusal :=
  if acts.all fun a => decide (a.index.toNat < s.par.rbCap) then settle (run { s with landing := acts })
  else .fault .noSuchRingByte

/-- Another agent has written a byte of the host memory (60_exceptions.md R233, log 7). -/
def agentWrites (addr : BitVec 32) (value : Byte) (s : State) : Host.Outcome State Fault Refusal :=
  .next { s with hm := Memory.write s.hm addr.toNat value, hmBusy := s.hmBusy.filter (· ≠ addr.toNat) }

/-- Another agent has begun to write a byte of the host memory: until it has written it, it reads as any value (20_memory.md R65, log 7). -/
def agentInvalidates (addr : BitVec 32) (s : State) : Host.Outcome State Fault Refusal :=
  .next { s with hmBusy := insertAddress addr.toNat s.hmBusy }

/-- The reset input: the cursors are 0, PBUF is unspecified, RB and HM stay (70_reset_and_hazards.md R250, 10_state.md R38 to
R41); no response is pending (DESIGN CHOICE, log 9). -/
def applyReset (s : State) : Host.Outcome State Fault Refusal :=
  .next { s with
    packer := { s.packer with pbuf := [], cur := 0, off := 0, resets := s.packer.resets + 1 }
    unpacker := { s.unpacker with start := 0, ptr := 0, boff := 0 }
    pResp := none
    uResp := none }

end Sys2Proof.Machine
end

