-- ==== Sys2Proof/Machine/Step.lean ====
section
/-! DEFINITION. One step: the nearest act of the outside world takes effect (log 1, log 8). The block fetches nothing
(10_state.md R33): its operations come as requests, so what `State.withFetchWord` places is the next request. -/

namespace Sys2Proof.Machine

/-- A request presented on a port: the operation it encodes there, or `ILLEGAL` (30_encoding.md R96, 60_exceptions.md R222). -/
def runRequest (port : Port) (r : Request) (s : State) : Host.Outcome State Fault Refusal :=
  match decode port r with
  | .ok i => exec i s
  | .error _ => answerIllegal port s

/-- The nearest input, on the state that no longer holds it; with nothing presented the block does nothing. -/
def step (s : State) : Host.Outcome State Fault Refusal :=
  match s.inputs with
  | [] => .next s
  | .request port r acts :: rest => runDuring acts (runRequest port r) { s with inputs := rest }
  | .ringWrite index value :: rest => engineWrites index value { s with inputs := rest }
  | .ringInvalid index :: rest => engineInvalidates index { s with inputs := rest }
  | .hostWrite addr value :: rest => agentWrites addr value { s with inputs := rest }
  | .hostInvalid addr :: rest => agentInvalidates addr { s with inputs := rest }
  | .reset :: rest => applyReset { s with inputs := rest }

/-- The state with the request of the table's bits `w` presented next, on the port of the unit its opcode names (log 1, log 12). -/
def State.withFetchWord (s : State) (nbits w : Nat) : State :=
  { s with inputs := .request (portOfBits nbits w) (requestOfBits nbits w) [] :: s.inputs }

end Sys2Proof.Machine
end

