-- ==== Sys2Proof/Safety.lean ====
section
/-! DEFINITION. What a legal state of the block is, in the terms the claims use: the ranges the spec gives the cursors
(10_state.md R21, R27, R28), the memories in canonical form within their sizes (20_memory.md R50, R53, R57), and what it says
holds of the bytes in the filled prefix (10_state.md R25, 30_encoding.md R70, R80). The predicates are decidable. -/

namespace Sys2Proof.Machine

/-- The Packer's cursors are in range (10_state.md R21), PBUF lies within its capacity (20_memory.md R51), every byte of the filled
prefix has been written (10_state.md R25), and the data bits of a partly filled byte that no deposit has written are 0
(30_encoding.md R80, 41_packer_fields.md R111). -/
abbrev Packer.Legal (pk : Packer) (cap : Nat) : Prop :=
  pk.cur.toNat ≤ cap ∧ pk.off.toNat ≤ 6 ∧ (pk.off ≠ 0 → pk.cur.toNat < cap) ∧
  Memory.wf pk.pbuf cap ∧
  (∀ k < pk.length, Memory.read pk.pbuf k ≠ none) ∧
  (pk.off ≠ 0 → ∀ j < 7 - pk.off.toNat, (pk.byte pk.cur.toNat).getLsbD j = false)

/-- The Unpacker's origin is a physical index of the ring and its bit offset is 0 to 6 (10_state.md R27, R28). -/
abbrev Unpacker.Legal (up : Unpacker) (ringCap : Nat) : Prop :=
  up.start.toNat < ringCap ∧ up.boff.toNat ≤ 6

/-- A legal state of the machine. -/
abbrev State.Legal (s : State) : Prop :=
  s.packer.Legal s.par.packCap ∧ s.unpacker.Legal s.par.rbCap ∧
  Memory.wf s.rb s.par.rbCap ∧ Memory.wf s.hm (2 ^ 32) ∧
  s.hmBusy.Pairwise (· < ·) ∧ ∀ a ∈ s.hmBusy, a < 2 ^ 32

/-- The physical indices at which an input says the receive engine acts. -/
def Input.engineIndices : Input → List (BitVec 16)
  | .request _ _ acts => acts.map Landing.index
  | .ringWrite index _ => [index]
  | .ringInvalid index => [index]
  | .hostWrite _ _ => []
  | .hostInvalid _ => []
  | .reset => []

/-- The framing rule on the filled prefix: framing bit 0 in byte 0 and 1 in every later byte (30_encoding.md R71). -/
abbrev Packer.Framed (pk : Packer) : Prop :=
  ∀ k < pk.length, (pk.byte k).getLsbD 7 = decide (k ≠ 0)

/-- The stream bits the Packer has written (30_encoding.md R72). -/
abbrev Packer.streamBit (pk : Packer) (k : Nat) : Bool := slotBit pk.byte k

/-- The stream bits the Unpacker sees from its origin (30_encoding.md R72, 44_unpacker.md R171). -/
abbrev State.ringBit (s : State) (k : Nat) : Bool := slotBit s.logicalByte k

/-- `new` is `old` with the low `n` bits of `v` appended as one field (30_encoding.md R72, R73, R80; 41_packer_fields.md R110, R111,
R113): the position moves on by `n`, the field's bits stand in order, every earlier stream bit and every byte the field does not
touch is as it was, the data bits after the field in its last byte are 0, a byte the field is the first to touch has the framing
bit of its index, and a byte it was not the first to touch keeps its framing bit. -/
structure Packer.FieldAdded {w : Nat} (old new : Packer) (v : BitVec w) (n : Nat) : Prop where
  cur : new.cur.toNat = (old.pos + n) / 7
  off : new.off.toNat = (old.pos + n) % 7
  bits : ∀ j < n, new.streamBit (old.pos + j) = v.getLsbD (n - 1 - j)
  earlier : ∀ k < old.pos, new.streamBit k = old.streamBit k
  pad : ∀ k, old.pos + n ≤ k → k < 7 * bytesFor (old.pos + n) → new.streamBit k = false
  framing : ∀ k < bytesFor (old.pos + n), old.pos ≤ 7 * k → (new.byte k).getLsbD 7 = decide (k ≠ 0)
  keeps : ∀ k, 7 * k < old.pos → (new.byte k).getLsbD 7 = (old.byte k).getLsbD 7
  outside : ∀ k, k < old.pos / 7 ∨ bytesFor (old.pos + n) ≤ k → Memory.read new.pbuf k = Memory.read old.pbuf k

/-- PBUF holds exactly this frame: it is the filled prefix, and it ends with a whole byte. -/
abbrev Packer.Holds (pk : Packer) (frame : List Byte) : Prop :=
  pk.length = frame.length ∧ pk.off = 0 ∧ ∀ k < frame.length, Memory.read pk.pbuf k = frame[k]?

/-- The frame proper with these covered bytes (at least one): its checksum byte after them (30_encoding.md R81, R85). -/
def sealed (covered : List Byte) : List Byte := covered ++ [1#1 ++ checksum covered]

/-- The first `len` bytes of this PBUF stand unchanged in the ring buffer from physical index `p` on, across its end, and are valid
throughout the operation under way, whatever the receive engine does elsewhere (44_unpacker.md R189, 20_memory.md R55). -/
abbrev State.RingHolds (s : State) (p : Nat) (pk : Packer) (len : Nat) : Prop :=
  ∀ k, ∀ i < len, Memory.read (s.ringAt k) ((p + i) % s.par.rbCap) = some (pk.byte i)

/-- The response on a port. -/
def State.response (s : State) : Port → Option Response
  | .packer => s.pResp
  | .unpacker => s.uResp

/-- The operations run one after another, each answered `OK`: the data of the responses, and the last state. -/
def runAll : List Instr → State → Option (List Word32 × State)
  | [], s => some ([], s)
  | i :: rest, s =>
    match exec i s with
    | .next t =>
      match t.response i.port with
      | some ⟨.ok, d⟩ => (runAll rest t).map fun r => (d :: r.1, r.2)
      | _ => none
    | _ => none

/-- The widths and signedness for which the Unpacker has a reader (44_unpacker.md R176 to R180). -/
inductive FieldKind where
  | u8
  | i8
  | u16
  | i16
  | i32
deriving DecidableEq, Repr

/-- The width of a field. -/
def FieldKind.width : FieldKind → Nat
  | .u8 => 8
  | .i8 => 8
  | .u16 => 16
  | .i16 => 16
  | .i32 => 32

/-- The reader of a field. -/
def FieldKind.reader : FieldKind → Instr
  | .u8 => .uGetU8
  | .i8 => .uGetI8
  | .u16 => .uGetU16
  | .i16 => .uGetI16
  | .i32 => .uGetI32

/-- What the reader returns for a value: `trunc_w(f)`, or `sext_32(trunc_w(f), w)` (44_unpacker.md R189). -/
def FieldKind.decoded : FieldKind → Word32 → Word32
  | .u8, v => (v.setWidth 8).setWidth 32
  | .i8, v => (v.setWidth 8).signExtend 32
  | .u16, v => (v.setWidth 16).setWidth 32
  | .i16, v => (v.setWidth 16).signExtend 32
  | .i32, v => v

/-- One row of the opcode map: its port, and the match value and mask of its command words (30_encoding.md R104). -/
structure OpcodeRow where
  port : Port
  value : BitVec 16
  mask : BitVec 16
deriving DecidableEq, Repr

/-- The rows of spec/opcode_table.json, in its order (30_encoding.md R97, R104). -/
def opcodeRows : List OpcodeRow := [
  ⟨.packer, 0x0000, 0xFFC0⟩,
  ⟨.packer, 0x0400, 0xFFFF⟩,
  ⟨.packer, 0x0800, 0xFFFF⟩,
  ⟨.packer, 0x0C00, 0xFFFF⟩,
  ⟨.packer, 0x1000, 0xFFFF⟩,
  ⟨.packer, 0x1400, 0xFC00⟩,
  ⟨.packer, 0x2000, 0xFF80⟩,
  ⟨.packer, 0x2400, 0xFFFF⟩,
  ⟨.packer, 0x2800, 0xFF80⟩,
  ⟨.packer, 0x2C00, 0xFFFF⟩,
  ⟨.packer, 0x3000, 0xFFFF⟩,
  ⟨.packer, 0x3400, 0xFFFF⟩,
  ⟨.packer, 0x3800, 0xFFFF⟩,
  ⟨.packer, 0x3C00, 0xFC00⟩,
  ⟨.packer, 0x4000, 0xFFF0⟩,
  ⟨.packer, 0x4400, 0xFFFF⟩,
  ⟨.packer, 0x4800, 0xFFF0⟩,
  ⟨.packer, 0x4C00, 0xFFFF⟩,
  ⟨.packer, 0x5000, 0xFFF0⟩,
  ⟨.packer, 0x5400, 0xFFFF⟩,
  ⟨.packer, 0x5800, 0xFFF0⟩,
  ⟨.packer, 0x5C00, 0xFFFF⟩,
  ⟨.packer, 0x6000, 0xFFF0⟩,
  ⟨.unpacker, 0x8000, 0xFFFF⟩,
  ⟨.unpacker, 0x8400, 0xFFFF⟩,
  ⟨.unpacker, 0x8800, 0xFFFF⟩,
  ⟨.unpacker, 0x8C00, 0xFFFF⟩,
  ⟨.unpacker, 0x9000, 0xFFFF⟩,
  ⟨.unpacker, 0x9400, 0xFFFF⟩,
  ⟨.unpacker, 0x9800, 0xFFFF⟩,
  ⟨.unpacker, 0x9C00, 0xFFFF⟩,
  ⟨.unpacker, 0xA000, 0xFFFF⟩,
  ⟨.unpacker, 0xA400, 0xFC00⟩,
  ⟨.unpacker, 0xA800, 0xFC00⟩]

/-- A command word is one of this row's. -/
abbrev OpcodeRow.Matches (row : OpcodeRow) (port : Port) (cw : BitVec 16) : Prop :=
  row.port = port ∧ cw &&& row.mask = row.value

/-- The bits of OPA an opcode uses (30_encoding.md R97); every other bit is ignored (R99). -/
def usedOpa (op : BitVec 6) : Word32 :=
  if op ∈ [0x00#6, 0x03#6, 0x04#6, 0x05#6, 0x13#6, 0x15#6, 0x17#6, 0x18#6, 0x20#6, 0x29#6] then 0xFFFFFFFF
  else if op = 0x01#6 then 0xFF
  else if op ∈ [0x02#6, 0x10#6, 0x11#6, 0x14#6, 0x16#6] then 0xFFFF
  else 0

/-- The bits of OPB an opcode uses (30_encoding.md R97); every other bit is ignored (R99). -/
def usedOpb (op : BitVec 6) : Word32 :=
  if op ∈ [0x14#6, 0x18#6] then 0xFFFFFFFF
  else if op ∈ [0x11#6, 0x13#6, 0x20#6] then 0xFFFF
  else 0

/-- The table `T` of the checksum, as the spec prints it: entry `x` is `CRC7Update(0, x)` (45_checksum.md R209). -/
def checksumTable : List Bits7 := [
  0x00, 0x09, 0x12, 0x1B, 0x24, 0x2D, 0x36, 0x3F,
  0x48, 0x41, 0x5A, 0x53, 0x6C, 0x65, 0x7E, 0x77,
  0x19, 0x10, 0x0B, 0x02, 0x3D, 0x34, 0x2F, 0x26,
  0x51, 0x58, 0x43, 0x4A, 0x75, 0x7C, 0x67, 0x6E,
  0x32, 0x3B, 0x20, 0x29, 0x16, 0x1F, 0x04, 0x0D,
  0x7A, 0x73, 0x68, 0x61, 0x5E, 0x57, 0x4C, 0x45,
  0x2B, 0x22, 0x39, 0x30, 0x0F, 0x06, 0x1D, 0x14,
  0x63, 0x6A, 0x71, 0x78, 0x47, 0x4E, 0x55, 0x5C,
  0x64, 0x6D, 0x76, 0x7F, 0x40, 0x49, 0x52, 0x5B,
  0x2C, 0x25, 0x3E, 0x37, 0x08, 0x01, 0x1A, 0x13,
  0x7D, 0x74, 0x6F, 0x66, 0x59, 0x50, 0x4B, 0x42,
  0x35, 0x3C, 0x27, 0x2E, 0x11, 0x18, 0x03, 0x0A,
  0x56, 0x5F, 0x44, 0x4D, 0x72, 0x7B, 0x60, 0x69,
  0x1E, 0x17, 0x0C, 0x05, 0x3A, 0x33, 0x28, 0x21,
  0x4F, 0x46, 0x5D, 0x54, 0x6B, 0x62, 0x79, 0x70,
  0x07, 0x0E, 0x15, 0x1C, 0x23, 0x2A, 0x31, 0x38]

/-- The data bits of a byte sequence in the order the checksum is fed them (45_checksum.md R201, R205). -/
def dataBits (bytes : List Byte) : List Bool :=
  bytes.flatMap fun b => [6, 5, 4, 3, 2, 1, 0].map b.getLsbD

/-- The builder `i` runs from `s` to its frame: the filled prefix is the covered bytes and their checksum byte, `len` bytes
long, every later byte of PBUF is as it was, and nothing else changes but the response (43_packer_composite.md R160). -/
abbrev Builds (i : Instr) (s : State) (len : Nat) (covered : List Byte) : Prop :=
  ∃ t, exec i s = .next t ∧ t.packer.Holds (sealed covered) ∧ t.packer.length = len ∧
    (∀ k, len ≤ k → Memory.read t.packer.pbuf k = Memory.read s.packer.pbuf k) ∧
    t = { s with packer := t.packer, pResp := some ⟨.ok, 0⟩ }

/-- The builder `i` has the effect of the operations `ops` run one after another, each of which is answered `OK`
(43_packer_composite.md R159). -/
abbrev RunsAs (i : Instr) (s : State) (ops : List Instr) : Prop :=
  ∃ t ds u, exec i s = .next t ∧ t.pResp = some ⟨.ok, 0⟩ ∧ runAll ops s = some (ds, u) ∧ t.packer = u.packer ∧
    t = { s with packer := t.packer, pResp := t.pResp }

/-- The operations `ops` are all answered `OK` and leave a filled prefix of `len` bytes. -/
abbrev BuildsLength (ops : List Instr) (s : State) (len : Nat) : Prop :=
  ∃ ds t, runAll ops s = some (ds, t) ∧ t.packer.length = len

/-- The add `i` completes: `OK`, its field appended, and nothing else changed. -/
abbrev Adds {w : Nat} (i : Instr) (s : State) (v : BitVec w) (n : Nat) : Prop :=
  ∃ t, exec i s = .next t ∧ s.packer.FieldAdded t.packer v n ∧
    t = { s with packer := t.packer, pResp := some ⟨.ok, 0⟩ }

/-- The reader `i` completes: `OK` with the `n` stream bits at the cursor, the first one most significant, extended by zeros or by
the field's own sign; the cursor moves on by `n`, and nothing else changes (44_unpacker.md R176 to R181). -/
abbrev ReadsField (i : Instr) (s : State) (n : Nat) (signed : Bool) : Prop :=
  ∃ t d, exec i s = .next t ∧
    (∀ b < 32, d.getLsbD b =
      if b < n then s.ringBit (s.unpacker.pos + (n - 1 - b)) else (signed && s.ringBit s.unpacker.pos)) ∧
    t.unpacker.ptr.toNat = (s.unpacker.pos + n) / 7 ∧ t.unpacker.boff.toNat = (s.unpacker.pos + n) % 7 ∧
    t.unpacker.start = s.unpacker.start ∧
    t = { s with unpacker := t.unpacker, uResp := some ⟨.ok, d⟩ }

/-- The header peek `i` completes: `OK` with this number, no register changed (44_unpacker.md R173 to R175). -/
abbrev Peeks (i : Instr) (s : State) (value : Nat) : Prop :=
  ∃ t d, exec i s = .next t ∧ d.toNat = value ∧
    t.unpacker.start = s.unpacker.start ∧ t.unpacker.ptr = s.unpacker.ptr ∧ t.unpacker.boff = s.unpacker.boff ∧
    t = { s with unpacker := t.unpacker, uResp := some ⟨.ok, d⟩ }

/-- These bytes stand in the ring buffer from physical index `p` on, across its end, and are valid throughout the operation under
way, whatever the receive engine does elsewhere. -/
abbrev State.RingHoldsBytes (s : State) (p : Nat) (frame : List Byte) : Prop :=
  ∀ k, ∀ i < frame.length, Memory.read (s.ringAt k) ((p + i) % s.par.rbCap) = frame[i]?

end Sys2Proof.Machine
end

