-- ==== Sys2Proof/Certificates/Slice0/Obligations.lean ====
section
/-! DEFINITION. The statements about the block, from the numbered rules of spec/. Where a statement speaks of `State.inputs`, that
what acts from outside is the head of a list is the model's form (DESIGN CHOICE, log 1); where it speaks of `Landing`s, `State.landing`
or `Memory.afterActs`, so is the form in which the receive engine acts during an operation (DEDUCED, log 8). -/

open Sys2Proof Sys2Proof.Machine

/-! ### The request word -/

/-- Decoding the request of a well-formed operation on its port gives the operation back (30_encoding.md R95, R97, R100). -/
def Obligations.DecodeInvertsEncode : Prop :=
  ∀ i : Instr, i.wellFormed = true → decode i.port (encode i) = .ok i

/-- What decodes is well formed, belongs to the port, and its own request is the one presented with the unused operand bits
cleared: every bit the opcode map gives the operation is read, and no other (30_encoding.md R97, R99, R100). -/
def Obligations.DecodedRequestReencodes : Prop :=
  ∀ (port : Port) (r : Request) (i : Instr), decode port r = .ok i →
    i.port = port ∧ i.wellFormed = true ∧
    encode i = ⟨r.cw, r.opa &&& usedOpa (opOf r.cw), r.opb &&& usedOpb (opOf r.cw)⟩

/-- Two requests with the same command word that agree on the operand bits their opcode uses have the same effect, whatever the
receive engine does during them (R99). -/
def Obligations.UnusedOperandBitsReachNothing : Prop :=
  ∀ (s : State) (port : Port) (r r' : Request) (acts : List Landing) (rest : List Input),
    r'.cw = r.cw →
    r'.opa &&& usedOpa (opOf r.cw) = r.opa &&& usedOpa (opOf r.cw) →
    r'.opb &&& usedOpb (opOf r.cw) = r.opb &&& usedOpb (opOf r.cw) →
    step { s with inputs := .request port r' acts :: rest } = step { s with inputs := .request port r acts :: rest }

/-- `ILLEGAL` is the answer exactly to a command word that matches no row of the opcode table on its port; such a request
changes nothing but the response, what the receive engine does meanwhile apart (60_exceptions.md R222, 30_encoding.md R98). -/
def Obligations.IllegalExactlyOffTheOpcodeMap : Prop :=
  ∀ (s : State) (port : Port) (r : Request) (acts : List Landing) (rest : List Input),
    s.inputs = .request port r acts :: rest → (∀ a ∈ acts, a.index.toNat < s.par.rbCap) →
    ((∀ row ∈ opcodeRows, ¬ row.Matches port r.cw) →
      step s = .next ({ s with
        inputs := rest, rb := Memory.afterActs s.rb acts, landing := [] }.answer port .illegal 0)) ∧
    ((∃ row ∈ opcodeRows, row.Matches port r.cw) →
      ∃ t resp, step s = .next t ∧ t.response port = some resp ∧ resp.status ≠ .illegal)

/-- A few of the spec's own words and the operations they stand for, one of each family (95_test_vectors.md sections 1 and 2). -/
def Obligations.SpecWordsDecodeToTheirOperations : Prop :=
  decode .packer ⟨0x0010, 100, 0⟩ = .ok (.pAddN 16 100) ∧
  decode .packer ⟨0x207F, 0, 0⟩ = .ok (.pBeginQ 7 15) ∧
  decode .packer ⟨0x5005, 20, 123456⟩ = .ok (.pMkQWrite 5 20 123456) ∧
  decode .unpacker ⟨0x8000, 0, 0x12345⟩ = .ok (.uReset 0 0x2345) ∧
  decode .unpacker ⟨0xA809, 0, 0⟩ = .ok (.uChkCrc 9) ∧
  decode .packer ⟨0x8400, 0, 0⟩ = .error .otherUnit ∧
  decode .packer ⟨0x1800, 0, 0⟩ = .error .unassigned ∧
  decode .packer ⟨0x0040, 1, 0⟩ = .error .mustBeZero

/-! ### One step -/

/-- When the nearest input is a request that decodes on its port, the step is the operation, on the state that no longer holds
the request and in which the acts of the receive engine during it stand ready; when it has completed they have all landed. That a request is the
head of `State.inputs` is the model's choice (DESIGN CHOICE, log 1), and so is that the engine's acts stand ready in `State.landing` and
have then all landed, with none left over (DEDUCED, log 8). -/
def Obligations.StepRunsTheDecodedOperation : Prop :=
  ∀ (s : State) (port : Port) (r : Request) (acts : List Landing) (rest : List Input) (i : Instr),
    s.inputs = .request port r acts :: rest → (∀ a ∈ acts, a.index.toNat < s.par.rbCap) → decode port r = .ok i →
    ∃ t, exec i { s with inputs := rest, landing := acts } = .next t ∧
      step s = .next { t with rb := Memory.afterActs s.rb acts, landing := [] }

/-- With nothing presented a step changes nothing. This is the model's choice (DESIGN CHOICE, log 1). -/
def Obligations.StepWithNothingPresentedChangesNothing : Prop :=
  ∀ s : State, s.inputs = [] → step s = .next s

/-- Every request is answered; an answer other than `OK` has RDATA 0 and nothing else written, what the receive engine does meanwhile
apart (60_exceptions.md R224). -/
def Obligations.FailedRequestWritesNothing : Prop :=
  ∀ (s : State) (port : Port) (r : Request) (acts : List Landing) (rest : List Input),
    s.inputs = .request port r acts :: rest → (∀ a ∈ acts, a.index.toNat < s.par.rbCap) →
    ∃ t resp, step s = .next t ∧ t.response port = some resp ∧ resp.status.code.toNat ≤ 4 ∧
      (resp.status ≠ .ok → resp.rdata = 0 ∧ t = { s with
        inputs := rest, rb := Memory.afterActs s.rb acts, landing := [] }.answer port resp.status 0)

/-- An operation on one unit never changes the state of the other, and none changes the ring buffer (20_memory.md R66,
10_state.md R29). -/
def Obligations.UnitsShareNoState : Prop :=
  ∀ (i : Instr) (s t : State), exec i s = .next t →
    t.rb = s.rb ∧ t.landing = s.landing ∧ t.par = s.par ∧ t.inputs = s.inputs ∧
    (i.port = .packer → t.unpacker = s.unpacker ∧ t.uResp = s.uResp) ∧
    (i.port = .unpacker → t.packer = s.packer ∧ t.pResp = s.pResp)

/-- What an operation of one unit does depends on nothing of the other: the same operation on a state that differs only in the
other unit (and, for the Packer, in the ring buffer and what the receive engine does to it) does the same (20_memory.md R66). -/
def Obligations.UnitsDoNotSeeEachOther : Prop :=
  ∀ (i : Instr) (s t : State), exec i s = .next t →
    (i.port = .packer → ∀ (up : Unpacker) (rb : Memory) (acts : List Landing) (resp : Option Response),
      exec i { s with unpacker := up, rb := rb, landing := acts, uResp := resp } =
        .next { t with unpacker := up, rb := rb, landing := acts, uResp := resp }) ∧
    (i.port = .unpacker → ∀ (pk : Packer) (resp : Option Response),
      exec i { s with packer := pk, pResp := resp } = .next { t with packer := pk, pResp := resp })

/-- Only U.GETBLK writes the host memory, and only P.ADDBLK depends on what it holds (20_memory.md R57). -/
def Obligations.HostMemoryIsReachedOnlyByBlockTransfers : Prop :=
  ∀ (i : Instr) (s t : State), exec i s = .next t →
    t.hmBusy = s.hmBusy ∧ ((∀ size addr, i ≠ .uGetBlk size addr) → t.hm = s.hm) ∧
    ((∀ size addr, i ≠ .pAddBlk size addr) → ∀ (m : Memory) (busy : List Nat), ∃ m' : Memory,
      exec i { s with hm := m, hmBusy := busy } = .next { t with hm := m', hmBusy := busy })

/-! ### Invariants -/

/-- Every step keeps the state legal: cursors in range, memories in canonical form within their sizes, the filled prefix
written, the unwritten data bits of a partly filled byte 0; and no act of the receive engine is left over from an operation
(10_state.md R21, R25, R27, R28, 20_memory.md R51, R55, 30_encoding.md R80). -/
def Obligations.StepKeepsTheStateLegal : Prop :=
  ∀ s t : State, s.Legal → step s = .next t → t.Legal ∧ (s.landing = [] → t.landing = [])

/-- The state after reset is legal, and no act of the receive engine is left over in it. -/
def Obligations.ResetStateIsLegal : Prop := State.reset.Legal ∧ State.reset.landing = []

/-- Every operation but P.HEND, whose suffix is raw, keeps the framing of the filled prefix: bit 7 is 0 in byte 0 and 1 in
every later byte (41_packer_fields.md R119, 30_encoding.md R71). -/
def Obligations.FramingSurvivesEveryOperation : Prop :=
  ∀ (i : Instr) (s t : State), s.Legal → s.packer.Framed → i ≠ .pHEnd → exec i s = .next t → t.packer.Framed

/-- No step, the reset input included, changes a parameter or a length table (70_reset_and_hazards.md R252). -/
def Obligations.ParametersAndLengthTablesAreConstant : Prop :=
  ∀ s t : State, step s = .next t →
    t.par = s.par ∧ Config.queryLength t.par = Config.queryLength s.par ∧
    Config.answerLength t.par = Config.answerLength s.par

/-! ### The outside world -/

/-- After the reset input the cursors are 0, PBUF is unspecified, and RB and HM are as they were (70_reset_and_hazards.md R250, 10_state.md
R38 to R41). -/
def Obligations.ResetInputClearsTheCursors : Prop :=
  ∀ (s : State) (rest : List Input), s.inputs = .reset :: rest →
    ∃ t, step s = .next t ∧ t.packer.cur = 0 ∧ t.packer.off = 0 ∧ t.unpacker.start = 0 ∧ t.unpacker.ptr = 0 ∧
      t.unpacker.boff = 0 ∧ (∀ k, Memory.read t.packer.pbuf k = none) ∧ t.rb = s.rb ∧ t.hm = s.hm ∧
      t = { s with packer := t.packer, unpacker := t.unpacker, pResp := t.pResp, uResp := t.uResp, inputs := rest }

/-- A byte the receive engine has fully written between operations is what the Unpacker reads of every logical byte that lies there,
until the engine acts on it again; the engine changes no other byte and no register (20_memory.md R55, R56). -/
def Obligations.ReceiveEngineBytesAreRead : Prop :=
  ∀ (s : State) (index : BitVec 16) (value : Byte) (rest : List Input), index.toNat < s.par.rbCap →
    (s.inputs = .ringWrite index value :: rest →
      ∃ t, step s = .next t ∧ t = { s with rb := t.rb, inputs := rest } ∧
        Memory.read t.rb index.toNat = some value ∧
        (s.landing = [] → ∀ i, (s.unpacker.start.toNat + i) % s.par.rbCap = index.toNat → t.logicalByte i = value) ∧
        ∀ p, p ≠ index.toNat → Memory.read t.rb p = Memory.read s.rb p) ∧
    (s.inputs = .ringInvalid index :: rest →
      ∃ t, step s = .next t ∧ t = { s with rb := t.rb, inputs := rest } ∧ Memory.read t.rb index.toNat = none ∧
        ∀ p, p ≠ index.toNat → Memory.read t.rb p = Memory.read s.rb p)

/-- A byte another agent writes into the host memory is what P.ADDBLK reads there, whichever position of its block it is; the agent
changes nothing else (60_exceptions.md R233, 20_memory.md R65). -/
def Obligations.HostAgentBytesAreRead : Prop :=
  ∀ (s : State) (addr : BitVec 32) (value : Byte) (rest : List Input),
    (s.inputs = .hostWrite addr value :: rest →
      ∃ t, step s = .next t ∧ t = { s with hm := t.hm, hmBusy := t.hmBusy, inputs := rest } ∧
        (∀ (base : BitVec 32) (i : Nat), hostAddress base i = addr.toNat → t.hostByte base i = value) ∧
        ∀ a, a ≠ addr.toNat → Memory.read t.hm a = Memory.read s.hm a ∧ (a ∈ t.hmBusy ↔ a ∈ s.hmBusy)) ∧
    (s.inputs = .hostInvalid addr :: rest →
      ∃ t, step s = .next t ∧ t = { s with hmBusy := t.hmBusy, inputs := rest } ∧ addr.toNat ∈ t.hmBusy ∧
        ∀ a, a ≠ addr.toNat → (a ∈ t.hmBusy ↔ a ∈ s.hmBusy))

/-- The only step that stops is one in which the receive engine acts at a physical index RB does not have (20_memory.md R53; that it
stops is the model's choice, log 10). -/
def Obligations.OnlyAMissingRingByteFaults : Prop :=
  ∀ (s : State) (input : Input) (rest : List Input), s.inputs = input :: rest →
    ((∃ index ∈ input.engineIndices, s.par.rbCap ≤ index.toNat) → step s = .fault .noSuchRingByte) ∧
    ((∀ index ∈ input.engineIndices, index.toNat < s.par.rbCap) → ∃ t, step s = .next t)

/-! ### Packer fields -/

/-- P.ADDN with a legal width and room appends the low `n` bits of its value, most significant bit first (41_packer_fields.md R110,
30_encoding.md R73). -/
def Obligations.AddNAppendsTheLowBits : Prop :=
  ∀ (s : State) (n : Nat) (v : BitVec 32), s.Legal → 1 ≤ n → n ≤ 32 →
    bytesFor (s.packer.pos + n) ≤ s.par.packCap → Adds (.pAddN n v) s v n

/-- P.ADD8, P.ADD16, P.ADD32 and P.ADDF with room append their 8, 16 or 32 bits (41_packer_fields.md R114 to R117). -/
def Obligations.FixedWidthAddsAppendTheirFields : Prop :=
  ∀ s : State, s.Legal →
    (bytesFor (s.packer.pos + 8) ≤ s.par.packCap → ∀ v, Adds (.pAdd8 v) s v 8) ∧
    (bytesFor (s.packer.pos + 16) ≤ s.par.packCap → ∀ v, Adds (.pAdd16 v) s v 16) ∧
    (bytesFor (s.packer.pos + 32) ≤ s.par.packCap → ∀ v, Adds (.pAdd32 v) s v 32 ∧ Adds (.pAddF v) s v 32)

/-- P.ADD8 is P.ADDN with n = 8 on its 8 bits, P.ADD16 with n = 16, P.ADD32 and P.ADDF with n = 32, in every state
(41_packer_fields.md R114 to R117). -/
def Obligations.FixedWidthAddsAreAddN : Prop :=
  ∀ (s : State) (opa : BitVec 32),
    exec (.pAdd8 (opa.setWidth 8)) s = exec (.pAddN 8 opa) s ∧
    exec (.pAdd16 (opa.setWidth 16)) s = exec (.pAddN 16 opa) s ∧
    exec (.pAdd32 opa) s = exec (.pAddN 32 opa) s ∧
    exec (.pAddF opa) s = exec (.pAdd32 opa) s

/-- An illegal width is answered `WIDTH` before room is looked at; a legal one with no room, `OVERFLOW`; neither writes anything
(41_packer_fields.md R110, R112, 60_exceptions.md R225). -/
def Obligations.AddsCheckWidthThenRoom : Prop :=
  ∀ (s : State),
    (∀ (n : Nat) (v : BitVec 32),
      (n = 0 ∨ 32 < n → exec (.pAddN n v) s = .next (s.answer .packer .width 0)) ∧
      (1 ≤ n → n ≤ 32 → s.par.packCap < bytesFor (s.packer.pos + n) →
        exec (.pAddN n v) s = .next (s.answer .packer .overflow 0))) ∧
    (s.par.packCap < bytesFor (s.packer.pos + 8) → ∀ v, exec (.pAdd8 v) s = .next (s.answer .packer .overflow 0)) ∧
    (s.par.packCap < bytesFor (s.packer.pos + 16) → ∀ v, exec (.pAdd16 v) s = .next (s.answer .packer .overflow 0)) ∧
    (s.par.packCap < bytesFor (s.packer.pos + 32) → ∀ v,
      exec (.pAdd32 v) s = .next (s.answer .packer .overflow 0) ∧
      exec (.pAddF v) s = .next (s.answer .packer .overflow 0)) ∧
    (∀ size addr, s.par.packCap < bytesFor (s.packer.pos + 8 * size) →
      exec (.pAddBlk size addr) s = .next (s.answer .packer .overflow 0))

/-- P.ADDBLK with room for the whole block appends the bytes of the host memory from its address on, in increasing address order
modulo 2^32, each as 8 bits most significant first; a byte no other agent is writing is read as what the last write of it left, or,
before any, as one content of its address, the same at every read (41_packer_fields.md R118, 20_memory.md R57, R58, R60, R65). -/
def Obligations.AddBlockAppendsTheHostBytes : Prop :=
  ∃ atStart : Nat → Byte, ∀ (s : State) (size : Nat) (addr : BitVec 32), s.Legal →
    bytesFor (s.packer.pos + 8 * size) ≤ s.par.packCap →
    ∃ (bytes : Nat → Byte) (v : BitVec (8 * size)),
      (∀ i < size, ∀ a, a = (addr.toNat + i) % 2 ^ 32 → a ∉ s.hmBusy →
        bytes i = (Memory.read s.hm a).getD (atStart a)) ∧
      (∀ i < size, ∀ j < 8, v.getLsbD (8 * size - 1 - (8 * i + j)) = (bytes i).getLsbD (7 - j)) ∧
      Adds (.pAddBlk size addr) s v (8 * size)

/-! ### Packer framing and readout -/

/-- A begin-query operation leaves its header in byte 0, framing bit 0, and the cursor after it (42_packer_framing.md R130, R132). -/
def Obligations.BeginQueryWritesTheHeader : Prop :=
  ∀ (s : State), s.Legal →
    (∀ (cmd : BitVec 3) (id : BitVec 4), ∃ t, exec (.pBeginQ cmd id) s = .next t ∧
      t.packer.cur = 1 ∧ t.packer.off = 0 ∧ Memory.read t.packer.pbuf 0 = some (0#1 ++ (cmd ++ id)) ∧
      (∀ k, k ≠ 0 → Memory.read t.packer.pbuf k = Memory.read s.packer.pbuf k) ∧
      t = { s with packer := t.packer, pResp := some ⟨.ok, 0⟩ }) ∧
    (∀ (cmd : BitVec 7), ∃ t, exec (.pHBeginQ cmd) s = .next t ∧
      t.packer.cur = 1 ∧ t.packer.off = 0 ∧ Memory.read t.packer.pbuf 0 = some (0#1 ++ cmd) ∧
      (∀ k, k ≠ 0 → Memory.read t.packer.pbuf k = Memory.read s.packer.pbuf k) ∧
      t = { s with packer := t.packer, pResp := some ⟨.ok, 0⟩ })

/-- A begin-answer operation sets the cursor to 0 and writes no byte; the length becomes 0 (42_packer_framing.md R131, R133). -/
def Obligations.BeginAnswerOnlyRewinds : Prop :=
  ∀ (s : State) (i : Instr), i = .pBeginA ∨ i = .pHBeginA →
    ∃ t, exec i s = .next t ∧ t.packer.cur = 0 ∧ t.packer.off = 0 ∧ t.packer.length = 0 ∧
      (∀ k, Memory.read t.packer.pbuf k = Memory.read s.packer.pbuf k) ∧
      t = { s with packer := t.packer, pResp := some ⟨.ok, 0⟩ }

/-- P.END with room appends one byte, the checksum of every byte of the filled prefix under the framing bit of its index
(42_packer_framing.md R134, R135, R136). -/
def Obligations.EndAppendsTheChecksumByte : Prop :=
  ∀ s : State, s.Legal → s.packer.length + 1 ≤ s.par.packCap →
    ∃ t, exec .pEnd s = .next t ∧
      t.packer.cur.toNat = s.packer.length + 1 ∧ t.packer.off = 0 ∧
      Memory.read t.packer.pbuf s.packer.length =
        some ((if s.packer.length = 0 then 0#1 else 1#1) ++ checksum (s.packer.prefixBytes s.packer.length)) ∧
      (∀ k, k ≠ s.packer.length → Memory.read t.packer.pbuf k = Memory.read s.packer.pbuf k) ∧
      t = { s with packer := t.packer, pResp := some ⟨.ok, 0⟩ }

/-- P.HEND with room appends the checksum byte, then HOST_TERM and 0x00 raw, and counts all three (42_packer_framing.md R138,
30_encoding.md R87). -/
def Obligations.HostEndAppendsTheSuffix : Prop :=
  ∀ s : State, s.Legal → s.packer.length + 3 ≤ s.par.packCap →
    ∃ t, exec .pHEnd s = .next t ∧
      t.packer.length = s.packer.length + 3 ∧ t.packer.cur.toNat = s.packer.length + 3 ∧ t.packer.off = 0 ∧
      Memory.read t.packer.pbuf s.packer.length =
        some ((if s.packer.length = 0 then 0#1 else 1#1) ++ checksum (s.packer.prefixBytes s.packer.length)) ∧
      Memory.read t.packer.pbuf (s.packer.length + 1) = some s.par.hostTerm ∧
      Memory.read t.packer.pbuf (s.packer.length + 2) = some 0x00 ∧
      (∀ k, k < s.packer.length ∨ s.packer.length + 3 ≤ k →
        Memory.read t.packer.pbuf k = Memory.read s.packer.pbuf k) ∧
      t = { s with packer := t.packer, pResp := some ⟨.ok, 0⟩ }

/-- Without room for every byte it would write, an end operation is answered `OVERFLOW` and writes nothing
(42_packer_framing.md R136). -/
def Obligations.EndOperationsCheckRoom : Prop :=
  ∀ s : State,
    (s.par.packCap < s.packer.length + 1 → exec .pEnd s = .next (s.answer .packer .overflow 0)) ∧
    (s.par.packCap < s.packer.length + 3 → exec .pHEnd s = .next (s.answer .packer .overflow 0))

/-- P.END does what depositing 0 bits up to the end of the byte and then the seven bits of the checksum, most significant first,
would do (42_packer_framing.md R134, 30_encoding.md R80, R81). -/
def Obligations.EndEqualsDepositingPadAndChecksum : Prop :=
  ∀ s t : State, s.Legal → s.packer.length + 1 ≤ s.par.packCap → exec .pEnd s = .next t →
    let padded := s.packer.depositField 0#7 ((7 - s.packer.off.toNat) % 7)
    let ended := padded.depositField (checksum (s.packer.prefixBytes s.packer.length)) 7
    t.packer.cur = ended.cur ∧ t.packer.off = ended.off ∧
      ∀ k, Memory.read t.packer.pbuf k = Memory.read ended.pbuf k

/-- P.LEN returns the filled length and changes no state (42_packer_framing.md R141, 10_state.md R23). -/
def Obligations.LenReturnsTheFilledLength : Prop :=
  ∀ s : State, ∃ d, exec .pLen s = .next { s with pResp := some ⟨.ok, d⟩ } ∧
    d.toNat = s.packer.cur.toNat + (if s.packer.off.toNat = 0 then 0 else 1)

/-- P.RDBUF returns a byte of the filled prefix, which has always been written since reset, and is answered `RANGE` for any other
index; it changes no state (42_packer_framing.md R142, 10_state.md R25). -/
def Obligations.ReadBufferExposesOnlyTheFilledPrefix : Prop :=
  ∀ (s : State) (index : Nat), s.Legal →
    (index < s.packer.length → ∃ b : Byte, Memory.read s.packer.pbuf index = some b ∧
      exec (.pRdBuf index) s = .next { s with pResp := some ⟨.ok, b.setWidth 32⟩ }) ∧
    (s.packer.length ≤ index → exec (.pRdBuf index) s = .next (s.answer .packer .range 0))

/-! ### Packer builders -/

/-- Every builder, from every legal state, leaves its frame proper, laid out byte by byte as 30_encoding.md R91 shows, with its length
table entry as its length (43_packer_composite.md R160, R150 to R158). -/
def Obligations.BuildersLayOutTheirFrames : Prop :=
  ∀ s : State, s.Legal →
    (∀ (id : BitVec 4) (v : BitVec 16), Builds (.pMkQCtrl id v) s (Config.queryLength s.par Config.cmdControl)
      [0#1 ++ (0#3 ++ id), 1#1 ++ v.extractLsb' 9 7, 1#1 ++ v.extractLsb' 2 7, 1#1 ++ (v.extractLsb' 0 2 ++ 0#5)]) ∧
    (∀ (id : BitVec 4), Builds (.pMkQInfo id) s (Config.queryLength s.par s.par.cmdInfo)
      [0#1 ++ (s.par.cmdInfo ++ id)]) ∧
    (∀ (id : BitVec 4) (x : BitVec 16) (v : BitVec 32),
      Builds (.pMkQWrite id x v) s (Config.queryLength s.par s.par.cmdWrite)
        [0#1 ++ (s.par.cmdWrite ++ id), 1#1 ++ x.extractLsb' 9 7, 1#1 ++ x.extractLsb' 2 7,
         1#1 ++ (x.extractLsb' 0 2 ++ v.extractLsb' 27 5), 1#1 ++ v.extractLsb' 20 7, 1#1 ++ v.extractLsb' 13 7,
         1#1 ++ v.extractLsb' 6 7, 1#1 ++ (v.extractLsb' 0 6 ++ 0#1)]) ∧
    (∀ (id : BitVec 4) (x : BitVec 16), Builds (.pMkQRead id x) s (Config.queryLength s.par s.par.cmdRead)
      [0#1 ++ (s.par.cmdRead ++ id), 1#1 ++ x.extractLsb' 9 7, 1#1 ++ x.extractLsb' 2 7,
       1#1 ++ (x.extractLsb' 0 2 ++ 0#5)]) ∧
    (∀ (id : BitVec 4) (a w : BitVec 32), Builds (.pMkQFlash id a w) s (Config.queryLength s.par s.par.cmdFlash)
      [0#1 ++ (s.par.cmdFlash ++ id), 1#1 ++ a.extractLsb' 25 7, 1#1 ++ a.extractLsb' 18 7,
       1#1 ++ a.extractLsb' 11 7, 1#1 ++ a.extractLsb' 4 7, 1#1 ++ (a.extractLsb' 0 4 ++ w.extractLsb' 29 3),
       1#1 ++ w.extractLsb' 22 7, 1#1 ++ w.extractLsb' 15 7, 1#1 ++ w.extractLsb' 8 7, 1#1 ++ w.extractLsb' 1 7,
       1#1 ++ (w.extractLsb' 0 1 ++ 0#6)]) ∧
    (∀ (a m : BitVec 16), Builds (.pMkACtrl a m) s (Config.answerLength s.par Config.cmdControl)
      [0#1 ++ a.extractLsb' 9 7, 1#1 ++ a.extractLsb' 2 7, 1#1 ++ (a.extractLsb' 0 2 ++ m.extractLsb' 11 5),
       1#1 ++ m.extractLsb' 4 7, 1#1 ++ (m.extractLsb' 0 4 ++ 0#3)]) ∧
    (∀ (v0 v1 v2 : BitVec 16), Builds (.pMkAInfo v0 v1 v2) s (Config.answerLength s.par s.par.cmdInfo)
      [0#1 ++ v0.extractLsb' 9 7, 1#1 ++ v0.extractLsb' 2 7, 1#1 ++ (v0.extractLsb' 0 2 ++ v1.extractLsb' 11 5),
       1#1 ++ v1.extractLsb' 4 7, 1#1 ++ (v1.extractLsb' 0 4 ++ v2.extractLsb' 13 3), 1#1 ++ v2.extractLsb' 6 7,
       1#1 ++ (v2.extractLsb' 0 6 ++ 0#1)]) ∧
    (∀ (v : BitVec 32), Builds (.pMkAWrite v) s (Config.answerLength s.par s.par.cmdWrite)
      [0#1 ++ v.extractLsb' 25 7, 1#1 ++ v.extractLsb' 18 7, 1#1 ++ v.extractLsb' 11 7, 1#1 ++ v.extractLsb' 4 7,
       1#1 ++ (v.extractLsb' 0 4 ++ 0#3)]) ∧
    (∀ (v : BitVec 32), Builds (.pMkARead v) s (Config.answerLength s.par s.par.cmdRead)
      [0#1 ++ v.extractLsb' 25 7, 1#1 ++ v.extractLsb' 18 7, 1#1 ++ v.extractLsb' 11 7, 1#1 ++ v.extractLsb' 4 7,
       1#1 ++ (v.extractLsb' 0 4 ++ 0#3)])

/-- Every builder, from every state, is answered `OK` and has the effect of the primitives its rule lists, run one after another, none of
which fails (43_packer_composite.md R159, R150 to R158). -/
def Obligations.BuildersEqualTheirSequences : Prop :=
  ∀ s : State,
    (∀ id v, RunsAs (.pMkQCtrl id v) s [.pBeginQ Config.cmdControl id, .pAdd16 v, .pEnd]) ∧
    (∀ a m, RunsAs (.pMkACtrl a m) s [.pBeginA, .pAdd16 a, .pAdd16 m, .pEnd]) ∧
    (∀ id, RunsAs (.pMkQInfo id) s [.pBeginQ s.par.cmdInfo id, .pEnd]) ∧
    (∀ v0 v1 v2, RunsAs (.pMkAInfo v0 v1 v2) s [.pBeginA, .pAdd16 v0, .pAdd16 v1, .pAdd16 v2, .pEnd]) ∧
    (∀ id x v, RunsAs (.pMkQWrite id x v) s [.pBeginQ s.par.cmdWrite id, .pAdd16 x, .pAdd32 v, .pEnd]) ∧
    (∀ v, RunsAs (.pMkAWrite v) s [.pBeginA, .pAdd32 v, .pEnd]) ∧
    (∀ id x, RunsAs (.pMkQRead id x) s [.pBeginQ s.par.cmdRead id, .pAdd16 x, .pEnd]) ∧
    (∀ v, RunsAs (.pMkARead v) s [.pBeginA, .pAdd32 v, .pEnd]) ∧
    (∀ id a w, RunsAs (.pMkQFlash id a w) s [.pBeginQ s.par.cmdFlash id, .pAdd32 a, .pAdd32 w, .pEnd])

/-- A begin operation, one add per field of a command's layout, and P.END leave a frame of that command's length table entry, the flash
answer included, which no builder makes (42_packer_framing.md R144, 30_encoding.md R89, R92, R93). -/
def Obligations.FrameLengthsMatchTheTables : Prop :=
  ∀ s : State, s.Legal → ∀ (id : BitVec 4) (x y z : BitVec 16) (v w : BitVec 32) (b : BitVec 8),
    BuildsLength [.pBeginQ Config.cmdControl id, .pAdd16 x, .pEnd] s (Config.queryLength s.par Config.cmdControl) ∧
    BuildsLength [.pBeginQ s.par.cmdInfo id, .pEnd] s (Config.queryLength s.par s.par.cmdInfo) ∧
    BuildsLength [.pBeginQ s.par.cmdWrite id, .pAdd16 x, .pAdd32 v, .pEnd] s
      (Config.queryLength s.par s.par.cmdWrite) ∧
    BuildsLength [.pBeginQ s.par.cmdRead id, .pAdd16 x, .pEnd] s (Config.queryLength s.par s.par.cmdRead) ∧
    BuildsLength [.pBeginQ s.par.cmdFlash id, .pAdd32 v, .pAdd32 w, .pEnd] s
      (Config.queryLength s.par s.par.cmdFlash) ∧
    BuildsLength [.pBeginA, .pAdd16 x, .pAdd16 y, .pEnd] s (Config.answerLength s.par Config.cmdControl) ∧
    BuildsLength [.pBeginA, .pAdd16 x, .pAdd16 y, .pAdd16 z, .pEnd] s (Config.answerLength s.par s.par.cmdInfo) ∧
    BuildsLength [.pBeginA, .pAdd32 v, .pEnd] s (Config.answerLength s.par s.par.cmdWrite) ∧
    BuildsLength [.pBeginA, .pAdd32 v, .pEnd] s (Config.answerLength s.par s.par.cmdRead) ∧
    BuildsLength [.pBeginA, .pAdd8 b, .pAdd32 v, .pEnd] s (Config.answerLength s.par s.par.cmdFlash)

/-! ### Unpacker -/

/-- U.RESET moves the origin, reduced modulo RB_CAP, and the cursor, reads no byte and changes nothing else (44_unpacker.md R172). -/
def Obligations.ResetOperationRelocates : Prop :=
  ∀ (s : State) (start : BitVec 32) (ptr : BitVec 16),
    ∃ t, exec (.uReset start ptr) s = .next t ∧ t.unpacker.start.toNat = start.toNat % s.par.rbCap ∧
      t.unpacker.ptr = ptr ∧ t.unpacker.boff = 0 ∧ t.unpacker.ringReads = s.unpacker.ringReads ∧
      t = { s with unpacker := t.unpacker, uResp := some ⟨.ok, 0⟩ }

/-- U.ID, U.CMD and U.HCMD return bits 3..0, bits 6..4 and all eight bits of logical byte 0, whatever the cursor is, and change no
register (44_unpacker.md R173, R174, R175). -/
def Obligations.HeaderPeeksReadLogicalByteZero : Prop :=
  ∀ s : State,
    Peeks .uId s ((s.logicalByte 0).toNat % 16) ∧
    Peeks .uCmd s ((s.logicalByte 0).toNat / 16 % 8) ∧
    Peeks .uHCmd s (s.logicalByte 0).toNat

/-- Each field reader whose field ends inside the cursor's range returns its stream bits, zero- or sign-extended from the field's own width,
and moves the cursor past them (44_unpacker.md R176 to R181). -/
def Obligations.ReadersReturnTheirFields : Prop :=
  ∀ s : State,
    ((s.unpacker.pos + 8) / 7 ≤ 65535 → ReadsField .uGetU8 s 8 false ∧ ReadsField .uGetI8 s 8 true) ∧
    ((s.unpacker.pos + 16) / 7 ≤ 65535 → ReadsField .uGetU16 s 16 false ∧ ReadsField .uGetI16 s 16 true) ∧
    ((s.unpacker.pos + 32) / 7 ≤ 65535 → ReadsField .uGetI32 s 32 false)

/-- A reader or U.GETBLK that would leave the cursor beyond 16 bits is answered `RANGE` and writes nothing (44_unpacker.md R181, R182,
60_exceptions.md R223). -/
def Obligations.ReadersStopAtTheCursorsEnd : Prop :=
  ∀ s : State,
    (65535 < (s.unpacker.pos + 8) / 7 → exec .uGetU8 s = .next (s.answer .unpacker .range 0) ∧
      exec .uGetI8 s = .next (s.answer .unpacker .range 0)) ∧
    (65535 < (s.unpacker.pos + 16) / 7 → exec .uGetU16 s = .next (s.answer .unpacker .range 0) ∧
      exec .uGetI16 s = .next (s.answer .unpacker .range 0)) ∧
    (65535 < (s.unpacker.pos + 32) / 7 → exec .uGetI32 s = .next (s.answer .unpacker .range 0)) ∧
    (∀ size addr, 65535 < (s.unpacker.pos + 8 * size) / 7 →
      exec (.uGetBlk size addr) s = .next (s.answer .unpacker .range 0))

/-- U.GETBLK whose block ends inside the cursor's range stores each 8-bit field, first bit most significant, at its address modulo 2^32, moves
the cursor past the block, and changes no other byte of the host memory and nothing else (44_unpacker.md R182). -/
def Obligations.GetBlockStoresTheFields : Prop :=
  ∀ (s : State) (size : Nat) (addr : BitVec 32), (s.unpacker.pos + 8 * size) / 7 ≤ 65535 →
    ∃ t, exec (.uGetBlk size addr) s = .next t ∧
      (∀ i < size, ∃ b : Byte, Memory.read t.hm (hostAddress addr i) = some b ∧
        ∀ j < 8, b.getLsbD (7 - j) = s.ringBit (s.unpacker.pos + 8 * i + j)) ∧
      (∀ a, (∀ i < size, a ≠ hostAddress addr i) → Memory.read t.hm a = Memory.read s.hm a) ∧
      t.unpacker.ptr.toNat = (s.unpacker.pos + 8 * size) / 7 ∧
      t.unpacker.boff.toNat = (s.unpacker.pos + 8 * size) % 7 ∧ t.unpacker.start = s.unpacker.start ∧
      t = { s with hm := t.hm, unpacker := t.unpacker, uResp := some ⟨.ok, 0⟩ }

/-- U.CHKCRC answers `OK` for every length: 0 for a length of 0 or beyond RB_CAP, else 1 exactly when the checksum of logical bytes
0..L-2 is the data bits of logical byte L-1; no register changes (44_unpacker.md R184). -/
def Obligations.CheckCrcComparesTheTrailingField : Prop :=
  ∀ (s : State) (len : Nat), s.Legal →
    (len = 0 ∨ s.par.rbCap < len → exec (.uChkCrc len) s = .next (s.answer .unpacker .ok 0)) ∧
    (0 < len → len ≤ s.par.rbCap →
      ∃ t, exec (.uChkCrc len) s = .next t ∧
        t.uResp = some ⟨.ok, if checksum ((List.range (len - 1)).map s.logicalByte) =
          (s.logicalByte (len - 1)).setWidth 7 then 1 else 0⟩ ∧
        t.unpacker.start = s.unpacker.start ∧ t.unpacker.ptr = s.unpacker.ptr ∧ t.unpacker.boff = s.unpacker.boff ∧
        t = { s with unpacker := t.unpacker, uResp := t.uResp })

/-- The two physical runs U.CHKCRC reads are the covered logical bytes in order, and the second is empty exactly when the range does not
straddle the ring's end (44_unpacker.md R185). -/
def Obligations.PhysicalRunsAreTheCoveredBytes : Prop :=
  ∀ (s : State) (n : Nat), s.Legal → n ≤ s.par.rbCap - 1 →
    s.firstRun n ++ s.secondRun n = (List.range n).map s.logicalByte ∧
    (s.secondRun n ≠ [] ↔ s.par.rbCap < s.unpacker.start.toNat + n)

/-- Decoding a frame that stands anywhere in the ring, across its end or not, gives the values, header peeks and checksum result it gives at
physical index 0 (44_unpacker.md R186). -/
def Obligations.DecodingIsTransparentToWraparound : Prop :=
  ∀ (a b : State) (frame : List Byte) (p : Nat) (ptr : BitVec 16) (fields : List FieldKind),
    b.par.rbCap = a.par.rbCap → frame.length ≤ a.par.rbCap → 0 < frame.length → p < a.par.rbCap →
    a.RingHoldsBytes 0 frame → b.RingHoldsBytes p frame →
    7 * ptr.toNat + (fields.map FieldKind.width).sum ≤ 7 * frame.length →
    7 * ptr.toNat + (fields.map FieldKind.width).sum < 7 * 65536 →
    let rest := fields.map FieldKind.reader ++ [.uId, .uCmd, .uHCmd, .uChkCrc frame.length]
    ∃ ds ta tb, runAll (.uReset 0 ptr :: rest) a = some (ds, ta) ∧
      runAll (.uReset (BitVec.ofNat 32 p) ptr :: rest) b = some (ds, tb)

/-- A reader undoes the add of a field of its width: where the data bits of the bytes the field touched stand at the reader's logical bytes,
and the cursor stands where the add began, it returns the field's value and stops where the add stopped (44_unpacker.md R181). -/
def Obligations.ReaderInvertsAdd : Prop :=
  ∀ (s t u : State) (kind : FieldKind) (v : BitVec 32), s.Legal →
    exec (.pAddN kind.width v) s = .next t → t.pResp = some ⟨.ok, 0⟩ →
    u.unpacker.pos = s.packer.pos →
    (∀ i, s.packer.pos / 7 ≤ i → i < t.packer.length →
      (u.logicalByte i).setWidth 7 = (t.packer.byte i).setWidth 7) →
    ∃ w, exec kind.reader u = .next w ∧ w.uResp = some ⟨.ok, kind.decoded v⟩ ∧ w.unpacker.pos = t.packer.pos

/-- A frame built by a begin operation, adds and P.END, copied unchanged into the ring anywhere, decodes to its header, to the fields it was
built from, and to a checksum that matches (44_unpacker.md R189). -/
def Obligations.FramesRoundTrip : Prop :=
  ∀ (s t u : State) (fields : List (FieldKind × BitVec 32)) (p : Nat) (ds : List Word32),
    s.Legal → p < u.par.rbCap → t.packer.length ≤ u.par.rbCap →
    u.RingHolds p t.packer t.packer.length →
    let adds := fields.map fun f => Instr.pAddN f.1.width f.2
    let readers := fields.map fun f => f.1.reader
    let values := fields.map fun f => f.1.decoded f.2
    (∀ (cmd : BitVec 3) (id : BitVec 4), runAll (.pBeginQ cmd id :: (adds ++ [.pEnd])) s = some (ds, t) →
      ∃ w, runAll ([.uReset (BitVec.ofNat 32 p) 1, .uId, .uCmd, .uChkCrc t.packer.length] ++ readers) u =
        some ([0, id.setWidth 32, cmd.setWidth 32, 1] ++ values, w)) ∧
    (runAll (.pBeginA :: (adds ++ [.pEnd])) s = some (ds, t) →
      ∃ w, runAll ([.uReset (BitVec.ofNat 32 p) 0, .uChkCrc t.packer.length] ++ readers) u =
        some ([0, 1] ++ values, w))

/-! ### Checksum -/

/-- The two-segment form is the checksum of the two segments as one (45_checksum.md R204). -/
def Obligations.ChecksumIgnoresTheSplit : Prop :=
  ∀ a b : List Byte, checksum2 a b = checksum (a ++ b)

/-- One update is a look-up in the table the spec prints, at the exclusive or of the register and the byte's data bits (45_checksum.md R209). -/
def Obligations.ChecksumHasTheTableForm : Prop :=
  ∀ (crc : Bits7) (b : Byte), checksumTable[(crc ^^^ b.setWidth 7).toNat]? = some (crc7Update crc b)

/-- The checksum of no bytes, and of bytes whose data bits are all 0, is 0, and bytes that differ only in bit 7 have the same checksum,
with the values the rule prints (45_checksum.md R207). -/
def Obligations.ChecksumCornerValues : Prop :=
  checksum [] = 0 ∧ checksum [0x00, 0x80, 0x80] = 0 ∧ checksum [0x7F] = 0x38 ∧ checksum [0xFF] = 0x38 ∧
  (∀ bytes : List Byte, (∀ b ∈ bytes, b.setWidth 7 = 0#7) → checksum bytes = 0) ∧
  (∀ a b : List Byte, a.map (·.setWidth 7) = b.map (BitVec.setWidth 7) → checksum a = checksum b)

/-- A change of the data bits of exactly one byte changes the checksum; so, of a frame that U.CHKCRC accepts, a change of the data bits of exactly
one byte, the checksum byte or a covered one, makes it return 0, and a change of framing bits only makes no difference
(45_checksum.md R206). -/
def Obligations.OneByteChangesAreDetected : Prop :=
  (∀ (before after : List Byte) (x y : Byte), x.setWidth 7 ≠ y.setWidth 7 →
    checksum (before ++ x :: after) ≠ checksum (before ++ y :: after)) ∧
  (∀ (s u s' u' : State) (len i : Nat), s.Legal → u.Legal → u.par.rbCap = s.par.rbCap → i < len → len ≤ s.par.rbCap →
    exec (.uChkCrc len) s = .next s' → s'.uResp = some ⟨.ok, 1⟩ → exec (.uChkCrc len) u = .next u' →
    (∀ j < len, j ≠ i → (u.logicalByte j).setWidth 7 = (s.logicalByte j).setWidth 7) →
    ((u.logicalByte i).setWidth 7 ≠ (s.logicalByte i).setWidth 7 → u'.uResp = some ⟨.ok, 0⟩) ∧
    ((u.logicalByte i).setWidth 7 = (s.logicalByte i).setWidth 7 → u'.uResp = some ⟨.ok, 1⟩))

/-- The checksum is the remainder of `M(x) * x^7` modulo `x^7 + x^3 + 1` over GF(2), where the coefficients of `M` are the data bits in feed order,
the first at the highest degree (45_checksum.md R205). -/
def Obligations.ChecksumIsThePolynomialRemainder : Prop :=
  ∀ bytes : List Byte,
    let X : Polynomial (ZMod 2) := Polynomial.X
    (∑ i ∈ Finset.range 7, if (checksum bytes).getLsbD i then X ^ i else 0) =
      ((dataBits bytes).foldl (fun m b => m * X + if b then 1 else 0) 0 * X ^ 7) %ₘ (X ^ 7 + X ^ 3 + 1)

/-! ### The receive engine inside an operation -/

/-- A byte the receive engine writes inside an operation, between two of its reads, is what the operation reads from then on; a read
before it gives what the byte held before, so that two logical bytes at one physical index may differ; when the operation has
completed, the byte is the one written (20_memory.md R55, R56, R60, 44_unpacker.md R170). That the reads of an operation are ordered by
logical index, that each act stands before the read of `Landing.before`, and that all have landed at the end is the model's form
(DEDUCED, log 8): the spec gives no order of the reads against the engine's writes (20_memory.md R64). The request is the head of
`State.inputs` (DESIGN CHOICE, log 1). -/
def Obligations.EngineWritesBetweenTwoReadsAreSeen : Prop :=
  (∀ (s : State) (earlier later : List Landing) (before : Nat) (index : BitVec 16) (value : Option Byte) (i : Nat),
    s.landing = earlier ++ ⟨before, index, value⟩ :: later →
    (∀ a ∈ earlier, a.before ≤ before) → (∀ a ∈ later, a.index ≠ index) →
    (s.unpacker.start.toNat + i) % s.par.rbCap = index.toNat →
    (before ≤ i → ∀ v, value = some v → s.logicalByte i = v) ∧
    (i < before → (∀ a ∈ earlier, a.index ≠ index) → ∀ v, Memory.read s.rb index.toNat = some v →
      s.logicalByte i = v)) ∧
  (∀ (s t : State) (port : Port) (r : Request) (earlier later : List Landing) (before : Nat) (index : BitVec 16)
    (value : Option Byte) (rest : List Input),
    s.inputs = .request port r (earlier ++ ⟨before, index, value⟩ :: later) :: rest →
    (∀ a ∈ later, a.index ≠ index) → step s = .next t → Memory.read t.rb index.toNat = value)
end

