-- ==== Sys2Proof/Laws/Checksum.lean ====
section
/-! SUPPORT. The Checksum unit: it is linear over exclusive or, reads data bits only, and loses nothing of its register. -/

namespace Sys2Proof.Machine

/-- One bit of the register's update is linear. -/
theorem crc7Bit_xor (c d : Bits7) (x y : Bool) : crc7Bit (c ^^^ d) (x ^^ y) = crc7Bit c x ^^^ crc7Bit d y := by
  have hs : (c ^^^ d) <<< 1 = (c <<< 1) ^^^ (d <<< 1) := BitVec.shiftLeft_xor_distrib ..
  have hx : ∀ p q r : Bits7, (p ^^^ r) ^^^ (q ^^^ r) = p ^^^ q := by
    intro p q r
    rw [BitVec.xor_assoc, ← BitVec.xor_assoc r, BitVec.xor_comm r q, BitVec.xor_assoc q, BitVec.xor_self,
      BitVec.xor_zero]
  simp only [crc7Bit, BitVec.getLsbD_xor, hs]
  generalize c.getLsbD 6 = p
  generalize d.getLsbD 6 = q
  cases p <;> cases q <;> cases x <;> cases y <;>
    simp only [Bool.xor_false, Bool.xor_true, Bool.not_false, Bool.not_true, Bool.false_eq_true, if_false, if_true] <;>
    first
      | rfl
      | rw [hx]
      | ac_rfl

/-- The register's update is linear. -/
theorem crc7Update_xor (c d : Bits7) (a b : Byte) :
    crc7Update (c ^^^ d) (a ^^^ b) = crc7Update c a ^^^ crc7Update d b := by
  simp only [crc7Update, List.foldl_cons, List.foldl_nil, BitVec.getLsbD_xor, crc7Bit_xor]

/-- Only data bits are read (45_checksum.md R202). -/
theorem crc7Update_congr (c : Bits7) {a b : Byte} (h : a.setWidth 7 = b.setWidth 7) :
    crc7Update c a = crc7Update c b := by
  have hb : ∀ j < 7, a.getLsbD j = b.getLsbD j := by
    intro j hj
    have := congrArg (·.getLsbD j) h
    simpa [hj] using this
  simp only [crc7Update, List.foldl_cons, List.foldl_nil, hb 6 (by omega), hb 5 (by omega), hb 4 (by omega),
    hb 3 (by omega), hb 2 (by omega), hb 1 (by omega), hb 0 (by omega)]

/-- Feeding zeros after a register is feeding the register's own bits to an empty one. -/
theorem crc7Update_zero_byte : ∀ c : Bits7, crc7Update c 0 = crc7Update 0 (c.setWidth 8) := by decide +kernel

/-- The update of an empty register loses nothing of the byte's data bits. -/
theorem crc7Update_zero_eq_zero : ∀ x : Bits7, crc7Update 0 (x.setWidth 8) = 0 → x = 0 := by decide +kernel

/-- An update by a fixed byte loses nothing of the register. -/
theorem crc7Update_injective (b : Byte) {c d : Bits7} (h : crc7Update c b = crc7Update d b) : c = d := by
  have hx := crc7Update_xor c d b b
  rw [h, BitVec.xor_self, BitVec.xor_self] at hx
  have h0 : c ^^^ d = 0 := crc7Update_zero_eq_zero _ ((crc7Update_zero_byte _).symm.trans hx)
  exact BitVec.xor_eq_zero_iff.mp h0

/-- Updates by the same bytes lose nothing of the register. -/
theorem foldl_crc7Update_injective (bytes : List Byte) {c d : Bits7}
    (h : bytes.foldl crc7Update c = bytes.foldl crc7Update d) : c = d := by
  induction bytes generalizing c d with
  | nil => exact h
  | cons b bytes ih => exact crc7Update_injective b (ih h)

/-- From one register, bytes that differ in a data bit lead to different registers. -/
theorem crc7Update_ne (c : Bits7) {a b : Byte} (h : a.setWidth 7 ≠ b.setWidth 7) :
    crc7Update c a ≠ crc7Update c b := by
  intro e
  have hx := crc7Update_xor c c a b
  rw [e, BitVec.xor_self, BitVec.xor_self] at hx
  have hs : (((a ^^^ b).setWidth 7).setWidth 8).setWidth 7 = (a ^^^ b).setWidth 7 := by
    simp
  have hw : crc7Update 0 (((a ^^^ b).setWidth 7).setWidth 8) = 0 := (crc7Update_congr 0 hs).trans hx
  have := crc7Update_zero_eq_zero _ hw
  rw [BitVec.setWidth_xor] at this
  exact h (BitVec.xor_eq_zero_iff.mp this)

/-- A checksum that goes on is an update. -/
theorem checksum_append (a b : List Byte) : checksum (a ++ b) = b.foldl crc7Update (checksum a) :=
  List.foldl_append

/-- Bytes with the same data bits have the same checksum. -/
theorem foldl_crc7Update_congr {a b : List Byte} (c : Bits7)
    (h : a.map (BitVec.setWidth 7) = b.map (BitVec.setWidth 7)) :
    a.foldl crc7Update c = b.foldl crc7Update c := by
  induction a generalizing b c with
  | nil => cases b <;> simp_all
  | cons x a ih =>
    cases b with
    | nil => simp at h
    | cons y b =>
      simp only [List.map_cons, List.cons.injEq] at h
      simp only [List.foldl_cons, crc7Update_congr c h.1]
      exact ih _ h.2

end Sys2Proof.Machine
end

