-- ==== Sys2Proof/Laws/PerInstr.lean ====
section
/-! SUPPORT. Statements made per operation. `UnitOfOpcode`: OP[5] names the operation's unit (30_encoding.md R96). -/

namespace Sys2Proof.Laws

/-- `OP[5]` of the operation's opcode names the port the operation belongs to (30_encoding.md R96). -/
def UnitOfOpcode.Statement (i : Instr) : Prop := portOfOp i.opcode = i.port

theorem UnitOfOpcode.pAddN : ∀ n value, UnitOfOpcode.Statement (.pAddN n value) := by
  intros; simp only [UnitOfOpcode.Statement, Instr.opcode, Instr.port]; decide
theorem UnitOfOpcode.pAdd8 : ∀ value, UnitOfOpcode.Statement (.pAdd8 value) := by
  intros; simp only [UnitOfOpcode.Statement, Instr.opcode, Instr.port]; decide
theorem UnitOfOpcode.pAdd16 : ∀ value, UnitOfOpcode.Statement (.pAdd16 value) := by
  intros; simp only [UnitOfOpcode.Statement, Instr.opcode, Instr.port]; decide
theorem UnitOfOpcode.pAdd32 : ∀ value, UnitOfOpcode.Statement (.pAdd32 value) := by
  intros; simp only [UnitOfOpcode.Statement, Instr.opcode, Instr.port]; decide
theorem UnitOfOpcode.pAddF : ∀ pattern, UnitOfOpcode.Statement (.pAddF pattern) := by
  intros; simp only [UnitOfOpcode.Statement, Instr.opcode, Instr.port]; decide
theorem UnitOfOpcode.pAddBlk : ∀ size addr, UnitOfOpcode.Statement (.pAddBlk size addr) := by
  intros; simp only [UnitOfOpcode.Statement, Instr.opcode, Instr.port]; decide
theorem UnitOfOpcode.pBeginQ : ∀ cmd id, UnitOfOpcode.Statement (.pBeginQ cmd id) := by
  intros; simp only [UnitOfOpcode.Statement, Instr.opcode, Instr.port]; decide
theorem UnitOfOpcode.pBeginA : UnitOfOpcode.Statement .pBeginA := by
  simp only [UnitOfOpcode.Statement, Instr.opcode, Instr.port]; decide
theorem UnitOfOpcode.pHBeginQ : ∀ cmd, UnitOfOpcode.Statement (.pHBeginQ cmd) := by
  intros; simp only [UnitOfOpcode.Statement, Instr.opcode, Instr.port]; decide
theorem UnitOfOpcode.pHBeginA : UnitOfOpcode.Statement .pHBeginA := by
  simp only [UnitOfOpcode.Statement, Instr.opcode, Instr.port]; decide
theorem UnitOfOpcode.pEnd : UnitOfOpcode.Statement .pEnd := by
  simp only [UnitOfOpcode.Statement, Instr.opcode, Instr.port]; decide
theorem UnitOfOpcode.pHEnd : UnitOfOpcode.Statement .pHEnd := by
  simp only [UnitOfOpcode.Statement, Instr.opcode, Instr.port]; decide
theorem UnitOfOpcode.pLen : UnitOfOpcode.Statement .pLen := by
  simp only [UnitOfOpcode.Statement, Instr.opcode, Instr.port]; decide
theorem UnitOfOpcode.pRdBuf : ∀ index, UnitOfOpcode.Statement (.pRdBuf index) := by
  intros; simp only [UnitOfOpcode.Statement, Instr.opcode, Instr.port]; decide
theorem UnitOfOpcode.pMkQCtrl : ∀ id value, UnitOfOpcode.Statement (.pMkQCtrl id value) := by
  intros; simp only [UnitOfOpcode.Statement, Instr.opcode, Instr.port]; decide
theorem UnitOfOpcode.pMkACtrl : ∀ angle moment, UnitOfOpcode.Statement (.pMkACtrl angle moment) := by
  intros; simp only [UnitOfOpcode.Statement, Instr.opcode, Instr.port]; decide
theorem UnitOfOpcode.pMkQInfo : ∀ id, UnitOfOpcode.Statement (.pMkQInfo id) := by
  intros; simp only [UnitOfOpcode.Statement, Instr.opcode, Instr.port]; decide
theorem UnitOfOpcode.pMkAInfo : ∀ v0 v1 v2, UnitOfOpcode.Statement (.pMkAInfo v0 v1 v2) := by
  intros; simp only [UnitOfOpcode.Statement, Instr.opcode, Instr.port]; decide
theorem UnitOfOpcode.pMkQWrite : ∀ id index value, UnitOfOpcode.Statement (.pMkQWrite id index value) := by
  intros; simp only [UnitOfOpcode.Statement, Instr.opcode, Instr.port]; decide
theorem UnitOfOpcode.pMkAWrite : ∀ value, UnitOfOpcode.Statement (.pMkAWrite value) := by
  intros; simp only [UnitOfOpcode.Statement, Instr.opcode, Instr.port]; decide
theorem UnitOfOpcode.pMkQRead : ∀ id index, UnitOfOpcode.Statement (.pMkQRead id index) := by
  intros; simp only [UnitOfOpcode.Statement, Instr.opcode, Instr.port]; decide
theorem UnitOfOpcode.pMkARead : ∀ value, UnitOfOpcode.Statement (.pMkARead value) := by
  intros; simp only [UnitOfOpcode.Statement, Instr.opcode, Instr.port]; decide
theorem UnitOfOpcode.pMkQFlash : ∀ id address word, UnitOfOpcode.Statement (.pMkQFlash id address word) := by
  intros; simp only [UnitOfOpcode.Statement, Instr.opcode, Instr.port]; decide
theorem UnitOfOpcode.uReset : ∀ start ptr, UnitOfOpcode.Statement (.uReset start ptr) := by
  intros; simp only [UnitOfOpcode.Statement, Instr.opcode, Instr.port]; decide
theorem UnitOfOpcode.uId : UnitOfOpcode.Statement .uId := by
  simp only [UnitOfOpcode.Statement, Instr.opcode, Instr.port]; decide
theorem UnitOfOpcode.uCmd : UnitOfOpcode.Statement .uCmd := by
  simp only [UnitOfOpcode.Statement, Instr.opcode, Instr.port]; decide
theorem UnitOfOpcode.uHCmd : UnitOfOpcode.Statement .uHCmd := by
  simp only [UnitOfOpcode.Statement, Instr.opcode, Instr.port]; decide
theorem UnitOfOpcode.uGetU8 : UnitOfOpcode.Statement .uGetU8 := by
  simp only [UnitOfOpcode.Statement, Instr.opcode, Instr.port]; decide
theorem UnitOfOpcode.uGetI8 : UnitOfOpcode.Statement .uGetI8 := by
  simp only [UnitOfOpcode.Statement, Instr.opcode, Instr.port]; decide
theorem UnitOfOpcode.uGetU16 : UnitOfOpcode.Statement .uGetU16 := by
  simp only [UnitOfOpcode.Statement, Instr.opcode, Instr.port]; decide
theorem UnitOfOpcode.uGetI16 : UnitOfOpcode.Statement .uGetI16 := by
  simp only [UnitOfOpcode.Statement, Instr.opcode, Instr.port]; decide
theorem UnitOfOpcode.uGetI32 : UnitOfOpcode.Statement .uGetI32 := by
  simp only [UnitOfOpcode.Statement, Instr.opcode, Instr.port]; decide
theorem UnitOfOpcode.uGetBlk : ∀ size addr, UnitOfOpcode.Statement (.uGetBlk size addr) := by
  intros; simp only [UnitOfOpcode.Statement, Instr.opcode, Instr.port]; decide
theorem UnitOfOpcode.uChkCrc : ∀ len, UnitOfOpcode.Statement (.uChkCrc len) := by
  intros; simp only [UnitOfOpcode.Statement, Instr.opcode, Instr.port]; decide

end Sys2Proof.Laws
end

