-- ==== Sys2Proof/Laws/Decode.lean ====
section
/-! SUPPORT. The decoder: the fields of a command word, and what each decoding of a port can answer. -/

namespace Sys2Proof

@[simp] theorem opOf_append (op : BitVec 6) (imm : BitVec 10) : opOf (op ++ imm) = op := by
  ext i hi
  have h := BitVec.getLsbD_append (x := op) (y := imm) (i := 10 + i)
  rw [opOf, BitVec.getElem_extractLsb']
  refine h.trans ?_
  simp [BitVec.getLsbD_eq_getElem, hi]

@[simp] theorem immOf_append (op : BitVec 6) (imm : BitVec 10) : immOf (op ++ imm) = imm := by
  ext i hi
  have h := BitVec.getLsbD_append (x := op) (y := imm) (i := 0 + i)
  rw [immOf, BitVec.getElem_extractLsb']
  refine h.trans ?_
  simp [BitVec.getLsbD_eq_getElem, hi]

/-- A command word is its opcode and its immediate field (30_encoding.md R95). -/
theorem append_opOf_immOf (cw : BitVec 16) : opOf cw ++ immOf cw = cw := by
  ext i hi
  rw [BitVec.getElem_append]
  split
  · simp [immOf, BitVec.getElem_extractLsb', BitVec.getLsbD_eq_getElem, *]
  · simp [opOf, BitVec.getElem_extractLsb', show 10 + (i - 10) = i by omega, BitVec.getLsbD_eq_getElem, *]

/-- What `accept` answers. -/
theorem accept_eq_ok {f : Format} {imm : BitVec 10} {i j : Instr} :
    accept f imm i = .ok j ↔ imm &&& f.zeroMask = 0 ∧ i = j := by
  unfold accept
  split
  · simp [*]
  · rename_i h
    exact ⟨(fun e => nomatch e), fun e => absurd e.1 h⟩

/-- An accepted request is decoded by the unit its opcode names. -/
theorem decode_eq_ok {port : Port} {r : Request} {i : Instr} (h : decode port r = .ok i) :
    portOfOp (opOf r.cw) = port ∧
      ((port = .packer ∧ decodePacker (opOf r.cw) (immOf r.cw) r.opa r.opb = .ok i) ∨
       (port = .unpacker ∧ decodeUnpacker (opOf r.cw) (immOf r.cw) r.opa r.opb = .ok i)) := by
  unfold decode at h
  split at h
  · refine ⟨‹_›, ?_⟩
    cases port
    · exact .inl ⟨rfl, h⟩
    · exact .inr ⟨rfl, h⟩
  · cases h

end Sys2Proof
end

