-- ==== Sys2Proof/Laws/Memory.lean ====
section
/-! SUPPORT. The laws of a byte memory: what a write and a forgetting change and leave, and that every memory operation keeps
the canonical form `Memory.wf`. -/

namespace Sys2Proof.Machine

@[simp] theorem Memory.read_nil (k : Nat) : Memory.read [] k = none := rfl

theorem Memory.read_cons (a : Nat) (b : Byte) (m : Memory) (k : Nat) :
    Memory.read ((a, b) :: m) k = if k = a then some b else Memory.read m k := rfl

/-- A read after a write to the same address gives the value written. -/
@[simp] theorem Memory.read_write_same (m : Memory) (k : Nat) (v : Byte) :
    Memory.read (Memory.write m k v) k = some v := by
  induction m with
  | nil => simp [Memory.write, Memory.read]
  | cons c m ih =>
    obtain ⟨a, b⟩ := c
    simp only [Memory.write]
    split
    · simp [Memory.read]
    · split
      · simp [Memory.read]
      · simp [Memory.read, *]

/-- A write leaves every other address alone. -/
theorem Memory.read_write_ne (m : Memory) {k j : Nat} (v : Byte) (h : j ≠ k) :
    Memory.read (Memory.write m k v) j = Memory.read m j := by
  induction m with
  | nil => simp [Memory.write, Memory.read, h]
  | cons c m ih =>
    obtain ⟨a, b⟩ := c
    simp only [Memory.write]
    split
    · simp [Memory.read, h]
    · split
      · subst k
        simp [Memory.read, h]
      · simp [Memory.read, ih]

/-- What an address reads after a write. -/
theorem Memory.read_write (m : Memory) (k j : Nat) (v : Byte) :
    Memory.read (Memory.write m k v) j = if j = k then some v else Memory.read m j := by
  split
  · subst j; simp
  · exact Memory.read_write_ne m v ‹_›

/-- What an address reads after its value, or another's, is forgotten. -/
theorem Memory.read_forget (m : Memory) (k j : Nat) :
    Memory.read (Memory.forget m k) j = if j = k then none else Memory.read m j := by
  induction m with
  | nil => simp [Memory.forget]
  | cons c m ih =>
    obtain ⟨a, b⟩ := c
    simp only [Memory.forget, List.filter_cons] at ih ⊢
    by_cases ha : a = k
    · subst a
      by_cases hj : j = k
      · subst j; simpa using ih
      · simpa [hj, Memory.read] using ih
    · by_cases hj : j = a
      · subst j; simp [ha, Memory.read]
      · simpa [ha, hj, Memory.read] using ih

/-- The addresses a write lists are those listed before and its own. -/
theorem Memory.mem_write {m : Memory} {k : Nat} {v : Byte} {c : Host.Cell} (h : c ∈ Memory.write m k v) :
    c = (k, v) ∨ c ∈ m := by
  induction m with
  | nil => simpa [Memory.write] using h
  | cons d m ih =>
    obtain ⟨a, b⟩ := d
    simp only [Memory.write] at h
    split at h
    · simpa using h
    · split at h
      · rcases List.mem_cons.mp h with h | h
        · exact .inl h
        · exact .inr (List.mem_cons_of_mem _ h)
      · rcases List.mem_cons.mp h with h | h
        · exact .inr (by simp [h])
        · exact (ih h).imp_right (List.mem_cons_of_mem _)

theorem Memory.write_sorted {m : Memory} (k : Nat) (v : Byte) (h : (m.map Prod.fst).Pairwise (· < ·)) :
    ((Memory.write m k v).map Prod.fst).Pairwise (· < ·) := by
  induction m with
  | nil => simp [Memory.write]
  | cons d m ih =>
    obtain ⟨a, b⟩ := d
    simp only [List.map_cons, List.pairwise_cons, List.mem_map, forall_exists_index, and_imp,
      forall_apply_eq_imp_iff₂] at h
    obtain ⟨ha, hm⟩ := h
    simp only [Memory.write]
    split
    · rename_i hk
      simp only [List.map_cons, List.pairwise_cons, List.mem_cons, List.mem_map, forall_eq_or_imp,
        forall_exists_index, and_imp, forall_apply_eq_imp_iff₂]
      exact ⟨⟨hk, fun c hc => hk.trans (ha c hc)⟩, ha, hm⟩
    · split
      · subst k
        simpa [List.pairwise_cons] using ⟨fun x y hxy => ha (x, y) hxy, hm⟩
      · rename_i h1 h2
        simp only [List.map_cons, List.pairwise_cons, List.mem_map, forall_exists_index, and_imp,
          forall_apply_eq_imp_iff₂]
        refine ⟨fun c hc => ?_, ih hm⟩
        rcases Memory.mem_write hc with rfl | hc
        · simp only
          omega
        · exact ha c hc

/-- A write within the size keeps the canonical form. -/
theorem Memory.write_wf {m : Memory} {size k : Nat} (v : Byte) (h : Memory.wf m size) (hk : k < size) :
    Memory.wf (Memory.write m k v) size := by
  refine ⟨Memory.write_sorted k v h.1, fun c hc => ?_⟩
  rcases Memory.mem_write hc with rfl | hc
  · exact hk
  · exact h.2 c hc

/-- Forgetting an address keeps the canonical form. -/
theorem Memory.forget_wf {m : Memory} {size : Nat} (k : Nat) (h : Memory.wf m size) :
    Memory.wf (Memory.forget m k) size := by
  refine ⟨h.1.sublist (List.filter_sublist.map Prod.fst), fun c hc => h.2 c ?_⟩
  exact List.mem_of_mem_filter hc

/-- The memory with nothing listed has the canonical form. -/
theorem Memory.nil_wf (size : Nat) : Memory.wf [] size :=
  ⟨List.Pairwise.nil, fun _ h => absurd h (List.not_mem_nil)⟩

theorem hostAddress_lt (addr : Word32) (i : Nat) : hostAddress addr i < 2 ^ 32 :=
  Nat.mod_lt _ (by decide)

/-- Distinct positions of a block of at most 2^32 bytes have distinct addresses (20_memory.md R57). -/
theorem hostAddress_inj (addr : Word32) {i j : Nat} (hi : i < 2 ^ 32) (hj : j < 2 ^ 32)
    (h : hostAddress addr i = hostAddress addr j) : i = j := by
  have := addr.isLt
  simp only [hostAddress] at h
  omega

/-- A block write keeps the canonical form of the host memory. -/
theorem Memory.writeBlock_wf {m : Memory} (addr : Word32) (byte : Nat → Byte) (size : Nat)
    (h : Memory.wf m (2 ^ 32)) : Memory.wf (Memory.writeBlock m addr byte size) (2 ^ 32) := by
  induction size with
  | zero => exact h
  | succ n ih => exact Memory.write_wf _ ih (hostAddress_lt addr n)

/-- A block write stores byte `i` at address `addr + i`. -/
theorem Memory.read_writeBlock_same (m : Memory) (addr : Word32) (byte : Nat → Byte) {size i : Nat}
    (hs : size ≤ 2 ^ 32) (hi : i < size) :
    Memory.read (Memory.writeBlock m addr byte size) (hostAddress addr i) = some (byte i) := by
  induction size with
  | zero => omega
  | succ n ih =>
    simp only [Memory.writeBlock]
    by_cases h : i = n
    · subst h; simp
    · rw [Memory.read_write_ne]
      · exact ih (by omega) (by omega)
      · exact fun e => h (hostAddress_inj addr (by omega) (by omega) e)

/-- A block write leaves every address outside the block alone. -/
theorem Memory.read_writeBlock_ne (m : Memory) (addr : Word32) (byte : Nat → Byte) (size a : Nat)
    (h : ∀ i < size, a ≠ hostAddress addr i) :
    Memory.read (Memory.writeBlock m addr byte size) a = Memory.read m a := by
  induction size with
  | zero => rfl
  | succ n ih =>
    simp only [Memory.writeBlock]
    rw [Memory.read_write_ne _ _ (h n (by omega))]
    exact ih fun i hi => h i (by omega)

/-- The memories right after reset have the canonical form. -/
theorem reset_memories_wf : Memory.wf State.reset.packer.pbuf State.reset.par.packCap ∧
    Memory.wf State.reset.rb State.reset.par.rbCap ∧ Memory.wf State.reset.hm (2 ^ 32) :=
  ⟨Memory.nil_wf _, Memory.nil_wf _, Memory.nil_wf _⟩

end Sys2Proof.Machine
end

