-- ==== Sys2Proof/Laws/State.lean ====
section
/-! SUPPORT. One lemma per field and update: what the ways an operation completes change, and what they leave. -/

namespace Sys2Proof.Machine

variable (s : State) (port : Port) (st : Status) (d : Word32)

@[simp] theorem State.answer_par : (s.answer port st d).par = s.par := by cases port <;> rfl
@[simp] theorem State.answer_packer : (s.answer port st d).packer = s.packer := by cases port <;> rfl
@[simp] theorem State.answer_unpacker : (s.answer port st d).unpacker = s.unpacker := by cases port <;> rfl
@[simp] theorem State.answer_rb : (s.answer port st d).rb = s.rb := by cases port <;> rfl
@[simp] theorem State.answer_hm : (s.answer port st d).hm = s.hm := by cases port <;> rfl
@[simp] theorem State.answer_hmBusy : (s.answer port st d).hmBusy = s.hmBusy := by cases port <;> rfl
@[simp] theorem State.answer_landing : (s.answer port st d).landing = s.landing := by cases port <;> rfl
@[simp] theorem State.answer_inputs : (s.answer port st d).inputs = s.inputs := by cases port <;> rfl
@[simp] theorem State.answer_pResp : (s.answer .packer st d).pResp = some ⟨st, d⟩ := rfl
@[simp] theorem State.answer_uResp : (s.answer .unpacker st d).uResp = some ⟨st, d⟩ := rfl
@[simp] theorem State.answer_pResp_other : (s.answer .unpacker st d).pResp = s.pResp := rfl
@[simp] theorem State.answer_uResp_other : (s.answer .packer st d).uResp = s.uResp := rfl

/-- A response on the Packer's port, as a record update. -/
theorem State.answer_packer_eq : s.answer .packer st d = { s with pResp := some ⟨st, d⟩ } := rfl

/-- A response on the Unpacker's port, as a record update. -/
theorem State.answer_unpacker_eq : s.answer .unpacker st d = { s with uResp := some ⟨st, d⟩ } := rfl

@[simp] theorem Unpacker.countRead_start (up : Unpacker) : up.countRead.start = up.start := rfl
@[simp] theorem Unpacker.countRead_ptr (up : Unpacker) : up.countRead.ptr = up.ptr := rfl
@[simp] theorem Unpacker.countRead_boff (up : Unpacker) : up.countRead.boff = up.boff := rfl
@[simp] theorem Unpacker.countRead_pos (up : Unpacker) : up.countRead.pos = up.pos := rfl
@[simp] theorem Unpacker.seek_start (up : Unpacker) (k : Nat) : (up.seek k).start = up.start := rfl
@[simp] theorem Unpacker.seek_ringReads (up : Unpacker) (k : Nat) : (up.seek k).ringReads = up.ringReads := rfl

@[simp] theorem Packer.rewind_pbuf (pk : Packer) : pk.rewind.pbuf = pk.pbuf := rfl
@[simp] theorem Packer.rewind_cur (pk : Packer) : pk.rewind.cur = 0 := rfl
@[simp] theorem Packer.rewind_off (pk : Packer) : pk.rewind.off = 0 := rfl
@[simp] theorem Packer.rewind_pos (pk : Packer) : pk.rewind.pos = 0 := rfl
@[simp] theorem Packer.rewind_length (pk : Packer) : pk.rewind.length = 0 := rfl
@[simp] theorem Packer.rewind_byte (pk : Packer) (k : Nat) : pk.rewind.byte k = pk.byte k := rfl

end Sys2Proof.Machine
end

