-- ==== Sys2Proof/Laws/Stream.lean ====
section
/-! SUPPORT. The Packer's stream: what one deposit does to a legal Packer, what a field does, and reading a field
back. Callers cite `Packer.deposit_spec` and `Packer.depositField_spec` and never unfold the deposits. -/

namespace Sys2Proof.Machine

/-- Setting a bit sets that bit and no other. -/
theorem getLsbD_setBit (b : Byte) (i : Nat) (v : Bool) (j : Nat) (hi : i < 8) :
    (setBit b i v).getLsbD j = if j = i then v else b.getLsbD j := by
  unfold setBit
  cases v
  · rcases Nat.lt_or_ge j 8 with hj | hj
    · interval_cases i <;> interval_cases j <;> simp
    · have : j ≠ i := by omega
      simp [this, BitVec.getLsbD_of_ge _ _ hj]
  · rcases Nat.lt_or_ge j 8 with hj | hj
    · interval_cases i <;> interval_cases j <;> simp
    · have : j ≠ i := by omega
      simp [this, BitVec.getLsbD_of_ge _ _ hj]

@[simp] theorem framingByte_bit7 (k : Nat) : (framingByte k).getLsbD 7 = decide (k ≠ 0) := by
  unfold framingByte
  split <;> simp [*]

theorem framingByte_data (k : Nat) {j : Nat} (h : j < 7) : (framingByte k).getLsbD j = false := by
  unfold framingByte
  split
  · simp
  · interval_cases j <;> rfl

theorem off_eq_zero_iff (o : BitVec 3) : o = 0 ↔ o.toNat = 0 := by
  constructor
  · rintro rfl; rfl
  · intro h; exact BitVec.eq_of_toNat_eq (by simpa using h)

theorem off_eq_six_iff (o : BitVec 3) : o = 6 ↔ o.toNat = 6 := by
  constructor
  · rintro rfl; rfl
  · intro h; exact BitVec.eq_of_toNat_eq (by simpa using h)

/-- The filled length, as the number of bytes `pos` stream bits take. -/
theorem Packer.length_eq (pk : Packer) (h : pk.off.toNat ≤ 6) : pk.length = bytesFor pk.pos := by
  simp only [Packer.length, bytesFor, Packer.pos, off_eq_zero_iff]
  split <;> omega

theorem Packer.byte_of_read {pk : Packer} {k : Nat} {b : Byte} (h : Memory.read pk.pbuf k = some b) :
    pk.byte k = b := by
  simp [Packer.byte, h]

/-- A byte of PBUF after a write of PBUF. -/
theorem Packer.byte_write (pk : Packer) (k j : Nat) (v : Byte) (c : BitVec 11) (o : BitVec 3) :
    ({ pk with pbuf := Memory.write pk.pbuf k v, cur := c, off := o } : Packer).byte j =
      if j = k then v else pk.byte j := by
  simp only [Packer.byte, Memory.read_write]
  split <;> rfl

/-- What one deposit into a Packer with room does (41_packer_fields.md R111): the cursor moves on by one stream bit, byte
`cur` has its framing bit and the bit deposited, and no other byte is touched. -/
theorem Packer.deposit_eq (pk : Packer) (bit : Bool) :
    ∃ v, v = setBit (if pk.off = 0 then framingByte pk.cur.toNat else pk.byte pk.cur.toNat) (6 - pk.off.toNat) bit ∧
      pk.deposit bit = { pk with
        pbuf := Memory.write pk.pbuf pk.cur.toNat v
        cur := if pk.off = 6 then pk.cur + 1 else pk.cur
        off := if pk.off = 6 then 0 else pk.off + 1 } := by
  refine ⟨_, rfl, ?_⟩
  simp only [Packer.deposit]
  split <;> rfl

/-- The invariants and the position after one deposit into a legal Packer whose byte `cur` lies in PBUF. -/
theorem Packer.deposit_spec {pk : Packer} {cap : Nat} (bit : Bool) (hcap : cap ≤ 1024) (hl : pk.Legal cap)
    (hc : pk.cur.toNat < cap) :
    (pk.deposit bit).Legal cap ∧ (pk.deposit bit).pos = pk.pos + 1 ∧
    (pk.deposit bit).resets = pk.resets ∧ (pk.deposit bit).hostReads = pk.hostReads ∧
    (∀ j, j ≠ pk.cur.toNat → Memory.read (pk.deposit bit).pbuf j = Memory.read pk.pbuf j) ∧
    (∀ k, k ≤ pk.pos → (pk.deposit bit).streamBit k = if k = pk.pos then bit else pk.streamBit k) ∧
    (∀ k, ((pk.deposit bit).byte k).getLsbD 7 =
      if 7 * k = pk.pos then decide (k ≠ 0) else (pk.byte k).getLsbD 7) := by
  obtain ⟨v, hv, e⟩ := pk.deposit_eq bit
  obtain ⟨h1, h2, h3, h4, h5, h6⟩ := hl
  set c := pk.cur.toNat with hcdef
  set o := pk.off.toNat with hodef
  have ho0 : pk.off = 0 ↔ o = 0 := off_eq_zero_iff pk.off
  have ho6 : pk.off = 6 ↔ o = 6 := off_eq_six_iff pk.off
  have one11 : (1 : BitVec 11).toNat = 1 := rfl
  have one3 : (1 : BitVec 3).toNat = 1 := rfl
  have hcur : ((pk.deposit bit).cur).toNat = if o = 6 then c + 1 else c := by
    rw [e]; simp only [ho6]; split
    · rw [BitVec.toNat_add, one11]; omega
    · rfl
  have hoff : ((pk.deposit bit).off).toNat = if o = 6 then 0 else o + 1 := by
    rw [e]; simp only [ho6]; split
    · rfl
    · rw [BitVec.toNat_add, one3]; omega
  have hoff0 := off_eq_zero_iff (pk.deposit bit).off
  have hbyte : ∀ j, (pk.deposit bit).byte j = if j = c then v else pk.byte j := by
    intro j; rw [e]; exact pk.byte_write c j v _ _
  have hread : ∀ j, Memory.read (pk.deposit bit).pbuf j = if j = c then some v else Memory.read pk.pbuf j := by
    intro j; rw [e]; exact Memory.read_write _ _ _ _
  have hbuf : (pk.deposit bit).pbuf = Memory.write pk.pbuf c v := by rw [e]
  have hlen : (pk.deposit bit).length = c + 1 := by
    simp only [Packer.length, hoff0, hoff, hcur]; split <;> simp
  have hvbit : ∀ j, v.getLsbD j =
      if j = 6 - o then bit else if o = 0 then (framingByte c).getLsbD j else (pk.byte c).getLsbD j := by
    intro j; rw [hv, getLsbD_setBit _ _ _ _ (by omega)]
    by_cases hz : pk.off = 0
    · rw [if_pos hz, if_pos (ho0.mp hz)]
    · rw [if_neg hz, if_neg fun h => hz (ho0.mpr h)]
  have hpos : (pk.deposit bit).pos = pk.pos + 1 := by
    simp only [Packer.pos, hcur, hoff]; split <;> omega
  refine ⟨⟨?_, ?_, ?_, ?_, ?_, ?_⟩, hpos, by rw [e], by rw [e], ?_, ?_, ?_⟩
  · rw [hcur]; split <;> omega
  · rw [hoff]; split <;> omega
  · rw [Ne, hoff0, hoff, hcur]; split <;> omega
  · rw [hbuf]; exact Memory.write_wf v h4 hc
  · rw [hlen]; intro k hk; rw [hread]
    split
    · simp
    · refine h5 k ?_
      simp only [Packer.length]; omega
  · intro hne j hj
    rw [Ne, hoff0, hoff] at hne
    rw [hoff] at hj
    rw [hcur, hbyte]
    have h66 : o ≠ 6 := by intro h; simp [h] at hne
    simp only [if_neg h66] at hj ⊢
    rw [if_pos trivial, hvbit]
    rw [if_neg (by omega)]
    split
    · exact framingByte_data c (by omega)
    · rename_i hz; exact h6 (fun h => hz (ho0.mp h)) j (by omega)
  · intro j hj; rw [hread, if_neg hj]
  · intro k hk
    have hp : pk.pos = 7 * c + o := rfl
    simp only [Packer.streamBit, slotBit, hbyte]
    by_cases hkp : k = pk.pos
    · have hd : k / 7 = c := by omega
      have hm : k % 7 = o := by omega
      rw [if_pos hd, if_pos hkp, hvbit, hm, if_pos rfl]
    · rw [if_neg hkp]
      by_cases hd : k / 7 = c
      · rw [if_pos hd, hvbit, if_neg (by omega), if_neg (by omega), hd]
      · rw [if_neg hd]
  · intro k
    have hp : pk.pos = 7 * c + o := rfl
    rw [hbyte]
    by_cases hkc : k = c
    · rw [if_pos hkc, hvbit, if_neg (by omega), hkc, framingByte_bit7]
      by_cases hz : o = 0
      · rw [if_pos hz, if_pos (by omega)]
      · rw [if_neg hz, if_neg (by omega)]
    · rw [if_neg hkc, if_neg (by omega)]

/-- The data bits after the position, in a partly filled byte, are 0 (30_encoding.md R80). -/
theorem Packer.streamBit_pad {pk : Packer} {cap : Nat} (hl : pk.Legal cap) {k : Nat} (h : pk.pos ≤ k)
    (hk : k < 7 * bytesFor pk.pos) : pk.streamBit k = false := by
  have ho := hl.2.1
  have h0 := off_eq_zero_iff pk.off
  simp only [bytesFor, Packer.pos] at h hk
  have hne : pk.off ≠ 0 := fun hz => by have := h0.mp hz; omega
  have hd : k / 7 = pk.cur.toNat := by omega
  simp only [Packer.streamBit, slotBit, hd]
  exact hl.2.2.2.2.2 hne _ (by omega)

theorem Packer.cur_of_pos {pk : Packer} (h : pk.off.toNat ≤ 6) : pk.cur.toNat = pk.pos / 7 := by
  simp only [Packer.pos]; omega

theorem Packer.off_of_pos {pk : Packer} (h : pk.off.toNat ≤ 6) : pk.off.toNat = pk.pos % 7 := by
  simp only [Packer.pos]; omega

/-- What depositing the low `n` bits of `v` into a legal Packer with room does (30_encoding.md R73, 41_packer_fields.md R110,
R113): the Packer stays legal and has exactly this field more. -/
theorem Packer.depositField_spec {w : Nat} (v : BitVec w) {cap : Nat} (hcap : cap ≤ 1024) (n : Nat) :
    ∀ {pk : Packer}, pk.Legal cap → bytesFor (pk.pos + n) ≤ cap →
    (pk.depositField v n).Legal cap ∧ pk.FieldAdded (pk.depositField v n) v n ∧
    (pk.depositField v n).resets = pk.resets ∧ (pk.depositField v n).hostReads = pk.hostReads := by
  induction n with
  | zero =>
    intro pk hl _
    refine ⟨hl, ⟨Packer.cur_of_pos hl.2.1, Packer.off_of_pos hl.2.1, fun j hj => by omega, fun _ _ => rfl,
      fun k h hk => Packer.streamBit_pad hl h hk, ?_, fun _ _ => rfl, fun _ _ => rfl⟩, rfl, rfl⟩
    intro k hk hp
    simp only [bytesFor] at hk; omega
  | succ n ih =>
    intro pk hl hroom
    have ho := hl.2.1
    have hc : pk.cur.toNat < cap := by
      simp only [bytesFor, Packer.pos] at hroom; omega
    have hcd : pk.pos / 7 = pk.cur.toNat := by simp only [Packer.pos]; omega
    obtain ⟨d1, d2, d3, d4, d5, d6, d7⟩ := Packer.deposit_spec (v.getLsbD n) hcap hl hc
    have hsum : pk.pos + 1 + n = pk.pos + (n + 1) := by omega
    obtain ⟨i1, f, i3, i4⟩ := ih d1 (by rw [d2, hsum]; exact hroom)
    have fbits := f.bits
    have fearlier := f.earlier
    have fpad := f.pad
    have fframing := f.framing
    have fkeeps := f.keeps
    have foutside := f.outside
    simp only [d2, hsum] at fbits fearlier fpad fframing fkeeps foutside
    simp only [Packer.depositField]
    refine ⟨i1, ⟨by rw [f.cur, d2, hsum], by rw [f.off, d2, hsum], ?_, ?_, fpad, ?_, ?_, ?_⟩, i3.trans d3, i4.trans d4⟩
    · intro j hj
      by_cases hj0 : j = 0
      · subst j
        rw [Nat.add_zero, fearlier _ (by omega), d6 _ le_rfl, if_pos rfl]
        simp
      · obtain ⟨j', rfl⟩ := Nat.exists_eq_succ_of_ne_zero hj0
        have := fbits j' (by omega)
        rw [show pk.pos + j'.succ = pk.pos + 1 + j' by omega, this]
        congr 1; omega
    · intro k hk
      rw [fearlier k (by omega), d6 k (by omega), if_neg (by omega)]
    · intro k hk hp
      by_cases h : 7 * k = pk.pos
      · rw [fkeeps k (by omega), d7, if_pos h]
      · exact fframing k hk (by omega)
    · intro k hk
      rw [fkeeps k (by omega), d7, if_neg (by omega)]
    · intro k hk
      rw [foutside k, d5 k]
      · simp only [bytesFor] at hk; omega
      · omega

namespace Packer.FieldAdded

variable {w n : Nat} {old new : Packer} {v : BitVec w}

/-- The position moves on by the field's width. -/
theorem pos (h : Packer.FieldAdded old new v n) : new.pos = old.pos + n := by
  simp only [Packer.pos, h.cur, h.off]; omega

/-- A field keeps the framing of the filled prefix. -/
theorem framed (h : Packer.FieldAdded old new v n) (ho : old.off.toNat ≤ 6) (hn : new.off.toNat ≤ 6)
    (hf : old.Framed) : new.Framed := by
  intro k hk
  rw [Packer.length_eq _ hn, h.pos] at hk
  by_cases hp : old.pos ≤ 7 * k
  · exact h.framing k hk hp
  · rw [h.keeps k (by omega)]
    exact hf k (by rw [Packer.length_eq _ ho]; simp only [bytesFor]; omega)

end Packer.FieldAdded

/-- The bit of a field read back: the loop of `ReadBits` puts stream bit `q + j` at bit `n-1-j` (44_unpacker.md R181). -/
theorem getLsbD_readBits (L : Nat → Byte) (q n i : Nat) (h : i < n) :
    (readBits L q n).getLsbD i = slotBit L (q + (n - 1 - i)) := by
  induction n generalizing i with
  | zero => omega
  | succ n ih =>
    rw [readBits, BitVec.getLsbD_concat]
    by_cases hi : i = 0
    · subst i; simp
    · rw [if_neg hi, ih (i - 1) (by omega)]
      congr 2; omega

/-- A field read depends only on the stream bits it covers. -/
theorem readBits_congr {L M : Nat → Byte} {q r n : Nat} (h : ∀ j < n, slotBit L (q + j) = slotBit M (r + j)) :
    readBits L q n = readBits M r n := by
  induction n with
  | zero => rfl
  | succ n ih =>
    rw [readBits, readBits, ih fun j hj => h j (by omega), h n (by omega)]

end Sys2Proof.Machine
end

