-- ==== Sys2Proof/Laws/Ops.lean ====
section
/-! SUPPORT. One lemma per shared operation of the Packer and per way an operation completes: everything it can do. The proofs of
statements cite these and do not unfold the operations. -/

namespace Sys2Proof.Machine

/-! ### Completing -/

/-- A Packer operation always completes: with its new Packer and `OK`, or with the failure and nothing written. -/
theorem State.finishPacker_cases {s t : State} {r : Except Status Packer} (h : s.finishPacker r = .next t) :
    (∃ pk, r = .ok pk ∧ t = { s with packer := pk, pResp := some ⟨.ok, 0⟩ }) ∨
    (∃ st, r = .error st ∧ t = { s with pResp := some ⟨st, 0⟩ }) := by
  cases r with
  | ok pk => exact .inl ⟨pk, rfl, (Host.Outcome.next.inj h).symm⟩
  | error st => exact .inr ⟨st, rfl, (Host.Outcome.next.inj h).symm⟩

/-- The cursor range check is a comparison (44_unpacker.md R181). -/
theorem pastCursorEnd_iff {q n : Nat} : pastCursorEnd q n = true ↔ 65535 < (q + n) / 7 := by
  simp [pastCursorEnd, Config.idxWidth]

/-- A field reader inside the cursor's range answers its field and moves the cursor past it. -/
theorem State.readField_eq {s : State} {n : Nat} {ext : BitVec n → Word32} (h : (s.unpacker.pos + n) / 7 ≤ 65535) :
    s.readField n ext = .next { s with
      unpacker := (s.unpacker.seek (s.unpacker.pos + n)).countRead
      uResp := some ⟨.ok, ext (readBits s.logicalByte s.unpacker.pos n)⟩ } := by
  have e : pastCursorEnd s.unpacker.pos n = false := by
    rw [Bool.eq_false_iff, Ne, pastCursorEnd_iff]; omega
  simp only [State.readField, e, Bool.false_eq_true, if_false]
  rfl

/-- A field reader always completes: past the cursor's end with `RANGE` and nothing written, else with its field. -/
theorem State.readField_cases {s t : State} {n : Nat} {ext : BitVec n → Word32} (h : s.readField n ext = .next t) :
    (65535 < (s.unpacker.pos + n) / 7 ∧ t = { s with uResp := some ⟨.range, 0⟩ }) ∨
    ((s.unpacker.pos + n) / 7 ≤ 65535 ∧ t = { s with
      unpacker := (s.unpacker.seek (s.unpacker.pos + n)).countRead
      uResp := some ⟨.ok, ext (readBits s.logicalByte s.unpacker.pos n)⟩ }) := by
  rcases Nat.lt_or_ge 65535 ((s.unpacker.pos + n) / 7) with hq | hq
  · refine .inl ⟨hq, ?_⟩
    have e : pastCursorEnd s.unpacker.pos n = true := pastCursorEnd_iff.mpr hq
    simp only [State.readField, e, if_true] at h
    exact (Host.Outcome.next.inj h).symm
  · refine .inr ⟨hq, ?_⟩
    rw [State.readField_eq hq] at h
    exact (Host.Outcome.next.inj h).symm

/-- The cursor after a seek inside its range. -/
theorem Unpacker.seek_spec (up : Unpacker) {k : Nat} (h : k / 7 ≤ 65535) :
    (up.seek k).ptr.toNat = k / 7 ∧ (up.seek k).boff.toNat = k % 7 ∧ (up.seek k).pos = k := by
  have h1 : (up.seek k).ptr.toNat = k / 7 := by
    simp only [Unpacker.seek, BitVec.toNat_ofNat]; omega
  have h2 : (up.seek k).boff.toNat = k % 7 := by
    simp only [Unpacker.seek, BitVec.toNat_ofNat]; omega
  refine ⟨h1, h2, ?_⟩
  simp only [Unpacker.pos, h1, h2]; omega

/-! ### The Packer -/

/-- The room check is a comparison (41_packer_fields.md R112). -/
theorem Packer.hasRoom_iff {pk : Packer} {cap nb : Nat} : pk.hasRoom cap nb = true ↔ bytesFor (pk.pos + nb) ≤ cap := by
  simp [Packer.hasRoom]

theorem Packer.hasRoomAfter_iff {pk : Packer} {cap m : Nat} : pk.hasRoomAfter cap m = true ↔ pk.length + m ≤ cap := by
  simp [Packer.hasRoomAfter]

/-- Adding a field either finds room and deposits it, or answers `OVERFLOW`. -/
theorem Packer.addField_cases {w : Nat} (pk : Packer) (cap : Nat) (v : BitVec w) (n : Nat) :
    (bytesFor (pk.pos + n) ≤ cap ∧ pk.addField cap v n = .ok (pk.depositField v n)) ∨
    (cap < bytesFor (pk.pos + n) ∧ pk.addField cap v n = .error .overflow) := by
  unfold Packer.addField
  split
  · exact .inl ⟨Packer.hasRoom_iff.mp ‹_›, rfl⟩
  · refine .inr ⟨?_, rfl⟩
    rename_i h
    rw [Packer.hasRoom_iff] at h; omega

/-- A rewound Packer is legal wherever PBUF is. -/
theorem Packer.rewind_legal {pk : Packer} {cap : Nat} (h : Memory.wf pk.pbuf cap) : pk.rewind.Legal cap :=
  ⟨Nat.zero_le _, Nat.zero_le _, fun hne => absurd rfl hne, h, fun _ hk => absurd hk (Nat.not_lt_zero _),
    fun hne => absurd rfl hne⟩

theorem Packer.rewind_framed (pk : Packer) : pk.rewind.Framed := fun _ hk => absurd hk (Nat.not_lt_zero _)

/-- The whole of a byte of the stream, from its framing bit and its seven data bits. -/
theorem byte_ext {a b : Byte} (h7 : a.getLsbD 7 = b.getLsbD 7) (h : ∀ j < 7, a.getLsbD j = b.getLsbD j) : a = b := by
  apply BitVec.eq_of_getLsbD_eq
  intro i hi
  rcases Nat.lt_or_ge i 7 with h' | h'
  · exact h i h'
  · rw [show i = 7 by omega]; exact h7

/-- A data bit of a byte of PBUF is a stream bit (30_encoding.md R72). -/
theorem Packer.byte_data (pk : Packer) (k : Nat) {j : Nat} (h : j < 7) :
    (pk.byte k).getLsbD j = pk.streamBit (7 * k + (6 - j)) := by
  simp only [Packer.streamBit, slotBit]
  rw [show (7 * k + (6 - j)) / 7 = k by omega, show 6 - (7 * k + (6 - j)) % 7 = j by omega]

/-- Beginning a query leaves the header, as a field of a rewound Packer. -/
theorem Packer.beginHeader_spec {pk : Packer} {cap : Nat} (hdr : Bits7) (h : Memory.wf pk.pbuf cap)
    (hlo : 1 ≤ cap) (hhi : cap ≤ 1024) :
    (pk.beginHeader hdr).Legal cap ∧ pk.rewind.FieldAdded (pk.beginHeader hdr) hdr 7 ∧
    (pk.beginHeader hdr).resets = pk.resets ∧ (pk.beginHeader hdr).hostReads = pk.hostReads :=
  Packer.depositField_spec hdr hhi 7 (Packer.rewind_legal h) (by
    simp only [bytesFor, Packer.rewind_pos]; omega)

/-- Finishing a frame in a legal Packer with room: the checksum byte, and nothing else of PBUF (42_packer_framing.md R134). -/
theorem Packer.endFrame_spec {pk : Packer} {cap : Nat} (hl : pk.Legal cap) (hhi : cap ≤ 1024)
    (h : pk.length + 1 ≤ cap) :
    ∃ pk', pk.endFrame cap = .ok pk' ∧ pk'.Legal cap ∧ pk'.cur.toNat = pk.length + 1 ∧ pk'.off = 0 ∧
      (∀ k, Memory.read pk'.pbuf k = if k = pk.length then
        some (framingByte pk.length ||| (checksum (pk.prefixBytes pk.length)).setWidth 8)
        else Memory.read pk.pbuf k) ∧
      pk'.resets = pk.resets ∧ pk'.hostReads = pk.hostReads := by
  simp only [Packer.endFrame, Packer.hasRoomAfter_iff.mpr h, if_true]
  have hcur : (BitVec.ofNat 11 (pk.length + 1)).toNat = pk.length + 1 := by
    simp only [BitVec.toNat_ofNat]; omega
  refine ⟨_, rfl, ⟨?_, Nat.zero_le _, fun hne => absurd rfl hne, ?_, ?_, fun hne => absurd rfl hne⟩,
    hcur, rfl, fun k => Memory.read_write _ _ _ _, rfl, rfl⟩
  · rw [hcur]; exact h
  · exact Memory.write_wf _ hl.2.2.2.1 (by omega)
  · intro k hk
    simp only [Packer.length, if_true] at hk
    simp only [Packer.writeChecksum, Memory.read_write]
    split
    · simp
    · exact hl.2.2.2.2.1 k (by simp only [Packer.length] at *; omega)

/-- Finishing a host frame in a legal Packer with room: the checksum byte and the two raw bytes (42_packer_framing.md R138). -/
theorem Packer.endHostFrame_spec {pk : Packer} {cap : Nat} (term : Byte) (hl : pk.Legal cap) (hhi : cap ≤ 1024)
    (h : pk.length + 3 ≤ cap) :
    ∃ pk', pk.endHostFrame cap term = .ok pk' ∧ pk'.Legal cap ∧ pk'.cur.toNat = pk.length + 3 ∧ pk'.off = 0 ∧
      (∀ k, Memory.read pk'.pbuf k =
        if k = pk.length + 2 then some 0x00 else if k = pk.length + 1 then some term
        else if k = pk.length then
          some (framingByte pk.length ||| (checksum (pk.prefixBytes pk.length)).setWidth 8)
        else Memory.read pk.pbuf k) ∧
      pk'.resets = pk.resets ∧ pk'.hostReads = pk.hostReads := by
  simp only [Packer.endHostFrame, Packer.hasRoomAfter_iff.mpr h, if_true]
  have hcur : (BitVec.ofNat 11 (pk.length + 3)).toNat = pk.length + 3 := by
    simp only [BitVec.toNat_ofNat]; omega
  have hread : ∀ k, Memory.read (Memory.write (Memory.write (pk.writeChecksum pk.length) (pk.length + 1) term)
      (pk.length + 2) 0x00) k =
        if k = pk.length + 2 then some 0x00 else if k = pk.length + 1 then some term
        else if k = pk.length then
          some (framingByte pk.length ||| (checksum (pk.prefixBytes pk.length)).setWidth 8)
        else Memory.read pk.pbuf k := by
    intro k; simp only [Packer.writeChecksum, Memory.read_write]
  refine ⟨_, rfl, ⟨?_, Nat.zero_le _, fun hne => absurd rfl hne, ?_, ?_, fun hne => absurd rfl hne⟩,
    hcur, rfl, hread, rfl, rfl⟩
  · rw [hcur]; exact h
  · exact Memory.write_wf _ (Memory.write_wf _ (Memory.write_wf _ hl.2.2.2.1 (by omega)) (by omega)) (by omega)
  · intro k hk
    simp only [Packer.length, if_true] at hk
    rw [hread]
    split
    · simp
    · split
      · simp
      · split
        · simp
        · exact hl.2.2.2.2.1 k (by simp only [Packer.length] at *; omega)

/-- An end operation finds room, or answers `OVERFLOW`. -/
theorem Packer.endFrame_overflow {pk : Packer} {cap : Nat} (h : cap < pk.length + 1) :
    pk.endFrame cap = .error .overflow := by
  simp only [Packer.endFrame]
  rw [if_neg]
  rw [Packer.hasRoomAfter_iff]; omega

theorem Packer.endHostFrame_overflow {pk : Packer} {cap : Nat} (term : Byte) (h : cap < pk.length + 3) :
    pk.endHostFrame cap term = .error .overflow := by
  simp only [Packer.endHostFrame]
  rw [if_neg]
  rw [Packer.hasRoomAfter_iff]; omega

/-- The checksum byte's bits: the framing bit of its index and the seven bits of the checksum (30_encoding.md R81). -/
theorem framingByte_or_setWidth (k : Nat) (c : Bits7) :
    framingByte k ||| c.setWidth 8 = (if k = 0 then 0#1 else 1#1) ++ c := by
  apply byte_ext
  · have h := BitVec.getLsbD_append (x := if k = 0 then 0#1 else 1#1) (y := c) (i := 7)
    refine Eq.trans ?_ h.symm
    rw [BitVec.getLsbD_or, framingByte_bit7]
    by_cases hk : k = 0 <;> simp [hk]
  · intro j hj
    have h := BitVec.getLsbD_append (x := if k = 0 then 0#1 else 1#1) (y := c) (i := j)
    refine Eq.trans ?_ h.symm
    rw [BitVec.getLsbD_or, framingByte_data k hj, if_pos hj]
    simp [show j < 8 by omega]

end Sys2Proof.Machine
end

