-- ==== Sys2Proof/Laws/Fields.lean ====
section
/-! SUPPORT. Fields put together: the deposits of one field, of two, and of a block of bytes; a byte of PBUF as its framing bit and
its seven stream bits; the widths P.ADDN accepts. -/

namespace Sys2Proof.Machine

/-- The width check is a comparison (41_packer_fields.md R110). -/
theorem legalWidth_iff {n : Nat} : legalWidth n = true ↔ 1 ≤ n ∧ n ≤ 32 := by
  refine (decide_eq_true_iff (p := n ≠ 0 ∧ n ≤ 32)).trans ?_
  omega

/-- P.ADDN with a legal width is the shared add. -/
theorem execPAddN_legal {n : Nat} (v : BitVec 32) (s : State) (h1 : 1 ≤ n) (h2 : n ≤ 32) :
    execPAddN n v s = s.finishPacker (s.packer.addField s.par.packCap v n) := by
  unfold execPAddN; rw [if_pos (legalWidth_iff.mpr ⟨h1, h2⟩)]

/-- P.ADDN with an illegal width is answered `WIDTH`. -/
theorem execPAddN_illegal {n : Nat} (v : BitVec 32) (s : State) (h : n = 0 ∨ 32 < n) :
    execPAddN n v s = .next (s.answer .packer .width 0) := by
  unfold execPAddN
  rw [if_neg (by rw [legalWidth_iff]; omega)]; rfl

/-- The shared add with room. -/
theorem State.finishPacker_addField {w : Nat} {s : State} (v : BitVec w) {n : Nat}
    (h : bytesFor (s.packer.pos + n) ≤ s.par.packCap) :
    s.finishPacker (s.packer.addField s.par.packCap v n) =
      .next { s with packer := s.packer.depositField v n, pResp := some ⟨.ok, 0⟩ } := by
  rcases Packer.addField_cases s.packer s.par.packCap v n with ⟨_, e⟩ | ⟨h', _⟩
  · rw [e]; rfl
  · omega

/-- The shared add without room. -/
theorem State.finishPacker_addField_overflow {w : Nat} {s : State} (v : BitVec w) {n : Nat}
    (h : s.par.packCap < bytesFor (s.packer.pos + n)) :
    s.finishPacker (s.packer.addField s.par.packCap v n) = .next (s.answer .packer .overflow 0) := by
  rcases Packer.addField_cases s.packer s.par.packCap v n with ⟨h', _⟩ | ⟨_, e⟩
  · omega
  · rw [e]; rfl

/-- Only the bits a field has are deposited. -/
theorem Packer.depositField_congr {w w' : Nat} {v : BitVec w} {v' : BitVec w'} (n : Nat) :
    ∀ (pk : Packer), (∀ j < n, v.getLsbD j = v'.getLsbD j) → pk.depositField v n = pk.depositField v' n := by
  induction n with
  | zero => intros; rfl
  | succ n ih =>
    intro pk h
    simp only [Packer.depositField]
    rw [h n (by omega), ih _ fun j hj => h j (by omega)]

/-- A field is its upper part followed by its lower part. -/
theorem Packer.depositField_add {w : Nat} (v : BitVec w) (n m : Nat) :
    ∀ pk : Packer, pk.depositField v (n + m) = (pk.depositField (v >>> m) n).depositField v m := by
  induction n with
  | zero => intro pk; rw [Nat.zero_add]; rfl
  | succ n ih =>
    intro pk
    rw [show n + 1 + m = (n + m) + 1 by omega]
    simp only [Packer.depositField]
    rw [ih]
    simp [Nat.add_comm]

/-- A block of bytes is one field: byte `i` is its bits `8 * (size - 1 - i)` and up (41_packer_fields.md R118). -/
theorem Packer.depositBytes_eq (bytes : List Byte) :
    ∃ v : BitVec (8 * bytes.length), (∀ pk : Packer, pk.depositBytes bytes = pk.depositField v (8 * bytes.length)) ∧
      ∀ i (h : i < bytes.length), ∀ j < 8,
        v.getLsbD (8 * bytes.length - 1 - (8 * i + j)) = (bytes[i]).getLsbD (7 - j) := by
  induction bytes with
  | nil => exact ⟨0#0, fun _ => rfl, fun i h => absurd h (Nat.not_lt_zero i)⟩
  | cons b bytes ih =>
    obtain ⟨v, hv, hb⟩ := ih
    have e : 8 + 8 * bytes.length = 8 * (b :: bytes).length := by simp only [List.length_cons]; omega
    have hget : ∀ k, ((b ++ v).cast e).getLsbD k =
        if k < 8 * bytes.length then v.getLsbD k else b.getLsbD (k - 8 * bytes.length) := by
      intro k; rw [BitVec.getLsbD_cast, BitVec.getLsbD_append]
    refine ⟨(b ++ v).cast e, fun pk => ?_, ?_⟩
    · have h0 : pk.depositBytes (b :: bytes) = (pk.depositField b 8).depositBytes bytes := by
        simp only [Packer.depositBytes, List.foldl_cons]
      have h1 : ∀ n, n = 8 + 8 * bytes.length → pk.depositField ((b ++ v).cast e) n =
          (pk.depositField ((b ++ v).cast e >>> (8 * bytes.length)) 8).depositField ((b ++ v).cast e)
            (8 * bytes.length) := by
        rintro n rfl; exact Packer.depositField_add _ _ _ _
      rw [h0, hv, h1 _ e.symm]
      rw [Packer.depositField_congr (v := (b ++ v).cast e) (v' := v) _ _ fun j hj => by rw [hget, if_pos hj]]
      refine congrArg (fun p : Packer => p.depositField v (8 * bytes.length))
        (Packer.depositField_congr 8 pk fun j hj => ?_)
      rw [BitVec.getLsbD_ushiftRight, hget, if_neg (by omega)]
      congr 1; omega
    · intro i h j hj
      rw [hget]
      simp only [List.length_cons] at h ⊢
      cases i with
      | zero =>
        rw [if_neg (by omega)]
        simp only [List.getElem_cons_zero]
        congr 1; omega
      | succ i =>
        rw [if_pos (by omega), List.getElem_cons_succ]
        exact (congrArg v.getLsbD (by omega)).trans (hb i (by omega) j hj)

/-- Bit 7 of a byte written as a framing bit and seven data bits. -/
theorem getLsbD_append_seven (x : BitVec 1) (d : Bits7) : ((x ++ d : BitVec (1 + 7)) : Byte).getLsbD 7 = x.getLsbD 0 :=
  (BitVec.getLsbD_append (x := x) (y := d) (i := 7)).trans rfl

/-- A data bit of a byte written as a framing bit and seven data bits. -/
theorem getLsbD_append_data (x : BitVec 1) (d : Bits7) {j : Nat} (h : j < 7) :
    ((x ++ d : BitVec (1 + 7)) : Byte).getLsbD j = d.getLsbD j :=
  (BitVec.getLsbD_append (x := x) (y := d) (i := j)).trans (if_pos h)

/-- A byte of the filled prefix of a legal Packer has been written. -/
theorem Packer.read_eq {pk : Packer} {cap : Nat} (hl : pk.Legal cap) {k : Nat} (h : k < pk.length) :
    Memory.read pk.pbuf k = some (pk.byte k) := by
  obtain ⟨x, hx⟩ := Option.ne_none_iff_exists'.mp (hl.2.2.2.2.1 k h)
  rw [hx, Packer.byte_of_read hx]

/-- A byte of PBUF from its framing bit and its seven stream bits (30_encoding.md R70, R72). -/
theorem Packer.byte_eq {pk : Packer} {k : Nat} {x : BitVec 1} {d : Bits7} (h7 : (pk.byte k).getLsbD 7 = x.getLsbD 0)
    (h : ∀ j < 7, pk.streamBit (7 * k + j) = d.getLsbD (6 - j)) : pk.byte k = (x ++ d : BitVec (1 + 7)) := by
  refine byte_ext (h7.trans (getLsbD_append_seven x d).symm) fun j hj => ?_
  rw [Packer.byte_data _ _ hj, h _ (by omega), getLsbD_append_data _ _ hj]
  congr 1; omega

end Sys2Proof.Machine
end

