-- ==== Sys2Proof/Laws/Ring.lean ====
section
/-! SUPPORT. The acts of the receive engine, the reads of the ring buffer and of the host memory, the header peek and the checksum
comparison: everything each can do. -/

namespace Sys2Proof.Machine

/-- No act of the receive engine: the ring buffer is as it was. -/
@[simp] theorem Memory.afterActs_nil (rb : Memory) : Memory.afterActs rb [] = rb := rfl

/-- The first act of the receive engine, then the others. -/
@[simp] theorem Memory.afterActs_cons (rb : Memory) (a : Landing) (acts : List Landing) :
    Memory.afterActs rb (a :: acts) = Memory.afterActs (a.apply rb) acts := rfl

theorem Memory.afterActs_append (rb : Memory) (acts more : List Landing) :
    Memory.afterActs rb (acts ++ more) = Memory.afterActs (Memory.afterActs rb acts) more := List.foldl_append

/-- What an act of the receive engine does to a byte of the ring buffer, and that it leaves every other one (20_memory.md R55, R56). -/
theorem Landing.read_apply (rb : Memory) (a : Landing) (p : Nat) :
    Memory.read (a.apply rb) p = if p = a.index.toNat then a.value else Memory.read rb p := by
  cases h : a.value with
  | some v => simp only [Landing.apply, h, Memory.read_write]
  | none => simp only [Landing.apply, h, Memory.read_forget]

/-- Acts of the receive engine elsewhere leave a byte alone. -/
theorem Memory.read_afterActs_ne {acts : List Landing} {p : Nat} (rb : Memory) (h : ∀ a ∈ acts, a.index.toNat ≠ p) :
    Memory.read (Memory.afterActs rb acts) p = Memory.read rb p := by
  induction acts generalizing rb with
  | nil => rfl
  | cons a acts ih =>
    rw [Memory.afterActs_cons, ih _ fun b hb => h b (List.mem_cons_of_mem a hb), Landing.read_apply,
      if_neg fun e => h a List.mem_cons_self e.symm]

/-- Acts of the receive engine inside the ring buffer keep the canonical form. -/
theorem Memory.afterActs_wf {acts : List Landing} {rb : Memory} {size : Nat} (hw : Memory.wf rb size)
    (h : ∀ a ∈ acts, a.index.toNat < size) : Memory.wf (Memory.afterActs rb acts) size := by
  induction acts generalizing rb with
  | nil => exact hw
  | cons a acts ih =>
    refine ih (rb := a.apply rb) ?_ fun b hb => h b (List.mem_cons_of_mem a hb)
    have ha := h a List.mem_cons_self
    unfold Landing.apply
    split
    · exact Memory.write_wf _ hw ha
    · exact Memory.forget_wf _ hw

/-- With no act of the receive engine during it, an operation reads the ring buffer as it stands. -/
theorem State.ringAt_quiet {s : State} (h : s.landing = []) (i : Nat) : s.ringAt i = s.rb := by
  rw [State.ringAt, h]; rfl

/-- With no act of the receive engine under way, bytes that stand in the ring buffer stand there throughout. -/
theorem State.ringHoldsBytes_quiet {s : State} {p : Nat} {frame : List Byte} (h : s.landing = [])
    (hr : ∀ i < frame.length, Memory.read s.rb ((p + i) % s.par.rbCap) = frame[i]?) : s.RingHoldsBytes p frame :=
  fun k i hi => by rw [State.ringAt_quiet h]; exact hr i hi

/-- The same for the bytes of a PBUF. -/
theorem State.ringHolds_quiet {s : State} {p len : Nat} {pk : Packer} (h : s.landing = [])
    (hr : ∀ i < len, Memory.read s.rb ((p + i) % s.par.rbCap) = some (pk.byte i)) : s.RingHolds p pk len :=
  fun k i hi => by rw [State.ringAt_quiet h]; exact hr i hi

/-- A byte of the ring buffer that is valid at its read is read as what it holds (20_memory.md R55, R56). -/
theorem State.ringRead_of_read {s : State} {p i : Nat} {b : Byte} (h : Memory.read (s.ringAt i) p = some b) :
    s.ringRead i p = b := by
  simp only [State.ringRead, h, Option.getD_some]

/-- A logical byte whose physical byte is valid at its read (44_unpacker.md R171). -/
theorem State.logicalByte_of_read {s : State} {i : Nat} {b : Byte}
    (h : Memory.read (s.ringAt i) ((s.unpacker.start.toNat + i) % s.par.rbCap) = some b) : s.logicalByte i = b :=
  State.ringRead_of_read h

/-- An operation that completes during acts of the receive engine inside the ring buffer: all of them have landed. -/
theorem runDuring_eq {acts : List Landing} {run : State → Host.Outcome State Fault Refusal} {s t : State}
    (h : ∀ a ∈ acts, a.index.toNat < s.par.rbCap) (hr : run { s with landing := acts } = .next t) :
    runDuring acts run s = .next { t with rb := Memory.afterActs t.rb t.landing, landing := [] } := by
  have e : (acts.all fun a => decide (a.index.toNat < s.par.rbCap)) = true := by simpa using h
  unfold runDuring
  rw [if_pos e, hr]; rfl

/-- An act of the receive engine at a byte the ring buffer does not have. -/
theorem runDuring_fault {acts : List Landing} {run : State → Host.Outcome State Fault Refusal} {s : State} {a : Landing}
    (ha : a ∈ acts) (h : s.par.rbCap ≤ a.index.toNat) : runDuring acts run s = .fault .noSuchRingByte := by
  unfold runDuring
  rw [if_neg]
  simp only [List.all_eq_true, decide_eq_true_eq, not_forall]
  exact ⟨a, ha, by omega⟩

/-- A byte of the host memory no other agent is writing is read as its content (20_memory.md R57, R60). -/
theorem State.hostByte_quiet {s : State} {addr : Word32} {i : Nat} (h : hostAddress addr i ∉ s.hmBusy) :
    s.hostByte addr i = s.hostContent (hostAddress addr i) := if_neg h

/-- The content of a byte of the host memory whose value is known. -/
theorem State.hostContent_of_read {s : State} {a : Nat} {b : Byte} (h : Memory.read s.hm a = some b) :
    s.hostContent a = b := by
  simp only [State.hostContent, h, Option.getD_some]

/-- The addresses of a list with one more. -/
theorem mem_insertAddress {k a : Nat} {l : List Nat} : a ∈ insertAddress k l ↔ a = k ∨ a ∈ l := by
  induction l with
  | nil => simp [insertAddress]
  | cons b l ih =>
    simp only [insertAddress]
    split
    · simp
    · split
      · subst k; simp
      · simp only [List.mem_cons, ih]; tauto

/-- One more address keeps the list strictly rising. -/
theorem insertAddress_sorted {k : Nat} {l : List Nat} (h : l.Pairwise (· < ·)) :
    (insertAddress k l).Pairwise (· < ·) := by
  induction l with
  | nil => simp [insertAddress]
  | cons b l ih =>
    obtain ⟨hb, hl⟩ := List.pairwise_cons.mp h
    simp only [insertAddress]
    split
    · rename_i hk
      exact List.pairwise_cons.mpr ⟨fun a ha => (List.mem_cons.mp ha).elim (· ▸ hk) fun ha => hk.trans (hb a ha), h⟩
    · split
      · exact h
      · refine List.pairwise_cons.mpr ⟨fun a ha => ?_, ih hl⟩
        rcases mem_insertAddress.mp ha with rfl | ha
        · omega
        · exact hb a ha

@[simp] theorem State.hostBlock_length (s : State) (addr : Word32) (size : Nat) :
    (s.hostBlock addr size).length = size := by
  simp [State.hostBlock]

@[simp] theorem State.hostBlock_getElem (s : State) (addr : Word32) (size i : Nat)
    (h : i < (s.hostBlock addr size).length) : (s.hostBlock addr size)[i] = s.hostByte addr i := by
  simp [State.hostBlock]

/-- A header peek always completes (44_unpacker.md R173 to R175). -/
theorem State.peekHeader_eq (s : State) (f : Byte → Word32) :
    s.peekHeader f = .next { s with
      unpacker := s.unpacker.countRead
      uResp := some ⟨.ok, f (s.logicalByte 0)⟩ } := rfl

/-- The comparison of U.CHKCRC (44_unpacker.md R184). -/
theorem State.frameMatches_iff {s : State} {len : Nat} : s.frameMatches len = true ↔
    checksum2 (s.firstRun (len - 1)) (s.secondRun (len - 1)) = (s.logicalByte (len - 1)).setWidth 7 :=
  decide_eq_true_iff

/-- U.CHKCRC of a length the ring can hold always completes, with 1 or 0 (44_unpacker.md R184). -/
theorem execUChkCrc_inside {s : State} {len : Nat} (h0 : 0 < len) (h : len ≤ s.par.rbCap) :
    execUChkCrc len s = .next { s with
      unpacker := s.unpacker.countRead
      uResp := some ⟨.ok, if s.frameMatches len then 1 else 0⟩ } := by
  unfold execUChkCrc
  rw [if_neg (by omega)]; rfl

end Sys2Proof.Machine
end

