-- ==== Sys2Proof/Laws/Runs.lean ====
section
/-! SUPPORT. Operations run one after another, and where the Packer's position goes whatever PBUF holds. -/

namespace Sys2Proof.Machine

/-- One operation of a run, answered `OK`. -/
theorem runAll_cons {i : Instr} {rest : List Instr} {s t : State} {d : Word32} (h : exec i s = .next t)
    (hr : t.response i.port = some ⟨.ok, d⟩) : runAll (i :: rest) s = (runAll rest t).map fun r => (d :: r.1, r.2) := by
  simp only [runAll, h, hr]

/-- A run whose first operation completes on the Packer's port with RDATA 0. -/
theorem runAll_packer {i : Instr} {rest : List Instr} {s u : State} {pk : Packer} {ds : List Word32}
    (h : exec i s = .next { s with packer := pk, pResp := some ⟨.ok, 0⟩ }) (hp : i.port = .packer)
    (hr : runAll rest { s with packer := pk, pResp := some ⟨.ok, 0⟩ } = some (ds, u)) :
    runAll (i :: rest) s = some (0 :: ds, u) := by
  rw [runAll_cons h (d := 0) (by rw [hp]; rfl), hr]; rfl

/-- The position after one deposit, whatever PBUF holds (41_packer_fields.md R111). -/
theorem Packer.deposit_pos (pk : Packer) (bit : Bool) (ho : pk.off.toNat ≤ 6) (h : pk.pos < 7 * 1024) :
    (pk.deposit bit).off.toNat ≤ 6 ∧ (pk.deposit bit).pos = pk.pos + 1 := by
  obtain ⟨v, _, e⟩ := pk.deposit_eq bit
  rw [e]
  have one11 : (1 : BitVec 11).toNat = 1 := rfl
  have one3 : (1 : BitVec 3).toNat = 1 := rfl
  have h6 := off_eq_six_iff pk.off
  simp only [Packer.pos] at h ⊢
  by_cases h' : pk.off = 6
  · have := h6.mp h'
    simp only [if_pos h']
    refine ⟨Nat.zero_le _, ?_⟩
    rw [BitVec.toNat_add, one11, show (0 : BitVec 3).toNat = 0 from rfl]; omega
  · have : pk.off.toNat ≠ 6 := fun h => h' (h6.mpr h)
    simp only [if_neg h']
    rw [BitVec.toNat_add, one3]
    exact ⟨by omega, by omega⟩

/-- The position after a field, whatever PBUF holds. -/
theorem Packer.depositField_pos {w : Nat} (v : BitVec w) (n : Nat) : ∀ pk : Packer, pk.off.toNat ≤ 6 →
    pk.pos + n ≤ 7 * 1024 → (pk.depositField v n).off.toNat ≤ 6 ∧ (pk.depositField v n).pos = pk.pos + n := by
  induction n with
  | zero => exact fun pk ho _ => ⟨ho, rfl⟩
  | succ n ih =>
    intro pk ho h
    obtain ⟨h1, h2⟩ := pk.deposit_pos (v.getLsbD n) ho (by omega)
    obtain ⟨h3, h4⟩ := ih (pk.deposit (v.getLsbD n)) h1 (by omega)
    exact ⟨h3, by simp only [Packer.depositField]; omega⟩

/-- A field with room in a PBUF of at most 1024 bytes. -/
theorem Packer.addField_ok {w : Nat} {pk : Packer} {cap : Nat} (v : BitVec w) {n : Nat} (ho : pk.off.toNat ≤ 6)
    (hcap : cap ≤ 1024) (h : bytesFor (pk.pos + n) ≤ cap) :
    ∃ pk', pk.addField cap v n = .ok pk' ∧ pk' = pk.depositField v n ∧ pk'.off.toNat ≤ 6 ∧ pk'.pos = pk.pos + n := by
  rcases Packer.addField_cases pk cap v n with ⟨_, e⟩ | ⟨h', _⟩
  · exact ⟨_, e, rfl, Packer.depositField_pos v n pk ho (by simp only [bytesFor] at h; omega)⟩
  · omega

/-- An end operation with room, whatever PBUF holds. -/
theorem Packer.endFrame_ok {pk : Packer} {cap : Nat} (hcap : cap ≤ 1024) (h : pk.length + 1 ≤ cap) :
    ∃ pk', pk.endFrame cap = .ok pk' ∧ pk'.length = pk.length + 1 ∧ pk'.off = 0 := by
  refine ⟨_, by simp only [Packer.endFrame]; rw [if_pos (Packer.hasRoomAfter_iff.mpr h)], ?_, rfl⟩
  have : (BitVec.ofNat 11 (pk.length + 1)).toNat = pk.length + 1 := by
    rw [BitVec.toNat_ofNat]; omega
  simp only [Packer.length, if_true] at this ⊢
  omega

/-- The position a begin-query operation leaves. -/
theorem Packer.beginHeader_pos (pk : Packer) (hdr : Bits7) :
    (pk.beginHeader hdr).off.toNat ≤ 6 ∧ (pk.beginHeader hdr).pos = 7 :=
  Packer.depositField_pos hdr 7 pk.rewind (Nat.zero_le _) (by rw [Packer.rewind_pos]; omega)

end Sys2Proof.Machine
end

