-- ==== Sys2Proof/Tests/Slice0.lean ====
section
/-! SUPPORT. The model's own tests: ill-formed operations refused, every operation's command word written out from the encoding,
one step of every operation on the values of 95_test_vectors.md, and for every statement a case that meets its hypotheses. -/

open Sys2Proof Sys2Proof.Machine

namespace Sys2Proof.Tests

set_option maxRecDepth 4000

/-! ### Well-formedness: each check refuses an operation no request can express (30_encoding.md R100) -/

theorem test_wellFormed_addN : (Instr.pAddN 64 0).wellFormed = false := by decide
theorem test_wellFormed_addBlk : (Instr.pAddBlk 1024 0).wellFormed = false := by decide
theorem test_wellFormed_rdBuf : (Instr.pRdBuf 1024).wellFormed = false := by decide
theorem test_wellFormed_getBlk : (Instr.uGetBlk 1024 0).wellFormed = false := by decide
theorem test_wellFormed_chkCrc : (Instr.uChkCrc 1024).wellFormed = false := by decide

/-! ### Decoding: a command word of every row, written out as OP and IMM10 subfields (30_encoding.md R95, R97, R104) -/

/-- The request with this opcode, immediate field and operands. -/
def req (op : BitVec 6) (imm : BitVec 10) (opa : Word32 := 0) (opb : Word32 := 0) : Request := ⟨op ++ imm, opa, opb⟩

theorem test_decode_pAddN : decode .packer (req 0b000000 (0b0000#4 ++ 0b100000#6) 0xFFFFFFFF 0) = .ok (.pAddN 32 0xFFFFFFFF) := by decide
theorem test_decode_pAdd8 : decode .packer (req 0b000001 (0b0000000000#10) 0x1FF 0) = .ok (.pAdd8 0xFF) := by decide
theorem test_decode_pAdd16 : decode .packer (req 0b000010 (0b0000000000#10) 0xFFFFFFFE 0) = .ok (.pAdd16 0xFFFE) := by decide
theorem test_decode_pAdd32 : decode .packer (req 0b000011 (0b0000000000#10) 0x12345678 0) = .ok (.pAdd32 0x12345678) := by decide
theorem test_decode_pAddF : decode .packer (req 0b000100 (0b0000000000#10) 0x3F800000 0) = .ok (.pAddF 0x3F800000) := by decide
theorem test_decode_pAddBlk : decode .packer (req 0b000101 (0b1111111111#10) 0x100 0) = .ok (.pAddBlk 1023 0x100) := by decide
theorem test_decode_pBeginQ : decode .packer (req 0b001000 (0b000#3 ++ 0b100#3 ++ 0b0011#4) 0 0) = .ok (.pBeginQ 4 3) := by decide
theorem test_decode_pBeginA : decode .packer (req 0b001001 (0b0000000000#10) 0 0) = .ok (.pBeginA) := by decide
theorem test_decode_pHBeginQ : decode .packer (req 0b001010 (0b000#3 ++ 0b1010101#7) 0 0) = .ok (.pHBeginQ 0x55) := by decide
theorem test_decode_pHBeginA : decode .packer (req 0b001011 (0b0000000000#10) 0 0) = .ok (.pHBeginA) := by decide
theorem test_decode_pEnd : decode .packer (req 0b001100 (0b0000000000#10) 0 0) = .ok (.pEnd) := by decide
theorem test_decode_pHEnd : decode .packer (req 0b001101 (0b0000000000#10) 0 0) = .ok (.pHEnd) := by decide
theorem test_decode_pLen : decode .packer (req 0b001110 (0b0000000000#10) 0 0) = .ok (.pLen) := by decide
theorem test_decode_pRdBuf : decode .packer (req 0b001111 (0b1000000001#10) 0 0) = .ok (.pRdBuf 513) := by decide
theorem test_decode_pMkQCtrl : decode .packer (req 0b010000 (0b000000#6 ++ 0b1010#4) 0x18001 0) = .ok (.pMkQCtrl 10 0x8001) := by decide
theorem test_decode_pMkACtrl : decode .packer (req 0b010001 (0b0000000000#10) 0xABCD1234 0xABCD5678) = .ok (.pMkACtrl 0x1234 0x5678) := by decide
theorem test_decode_pMkQInfo : decode .packer (req 0b010010 (0b000000#6 ++ 0b0101#4) 0 0) = .ok (.pMkQInfo 5) := by decide
theorem test_decode_pMkAInfo : decode .packer (req 0b010011 (0b0000000000#10) 0x00020001 0xABCD0003) = .ok (.pMkAInfo 1 2 3) := by decide
theorem test_decode_pMkQWrite : decode .packer (req 0b010100 (0b000000#6 ++ 0b1001#4) 0xABCD0014 0x89ABCDEF) = .ok (.pMkQWrite 9 20 0x89ABCDEF) := by decide
theorem test_decode_pMkAWrite : decode .packer (req 0b010101 (0b0000000000#10) 0x89ABCDEF 0) = .ok (.pMkAWrite 0x89ABCDEF) := by decide
theorem test_decode_pMkQRead : decode .packer (req 0b010110 (0b000000#6 ++ 0b0110#4) 0xABCD0007 0) = .ok (.pMkQRead 6 7) := by decide
theorem test_decode_pMkARead : decode .packer (req 0b010111 (0b0000000000#10) 0xFFFFFFFF 0) = .ok (.pMkARead 0xFFFFFFFF) := by decide
theorem test_decode_pMkQFlash : decode .packer (req 0b011000 (0b000000#6 ++ 0b1110#4) 0x08000000 0xDEADBEEF) = .ok (.pMkQFlash 14 0x08000000 0xDEADBEEF) := by decide
theorem test_decode_uReset : decode .unpacker (req 0b100000 (0b0000000000#10) 0x10015 0x12345) = .ok (.uReset 0x10015 0x2345) := by decide
theorem test_decode_uId : decode .unpacker (req 0b100001 (0b0000000000#10) 0 0) = .ok (.uId) := by decide
theorem test_decode_uCmd : decode .unpacker (req 0b100010 (0b0000000000#10) 0 0) = .ok (.uCmd) := by decide
theorem test_decode_uHCmd : decode .unpacker (req 0b100011 (0b0000000000#10) 0 0) = .ok (.uHCmd) := by decide
theorem test_decode_uGetU8 : decode .unpacker (req 0b100100 (0b0000000000#10) 0 0) = .ok (.uGetU8) := by decide
theorem test_decode_uGetI8 : decode .unpacker (req 0b100101 (0b0000000000#10) 0 0) = .ok (.uGetI8) := by decide
theorem test_decode_uGetU16 : decode .unpacker (req 0b100110 (0b0000000000#10) 0 0) = .ok (.uGetU16) := by decide
theorem test_decode_uGetI16 : decode .unpacker (req 0b100111 (0b0000000000#10) 0 0) = .ok (.uGetI16) := by decide
theorem test_decode_uGetI32 : decode .unpacker (req 0b101000 (0b0000000000#10) 0 0) = .ok (.uGetI32) := by decide
theorem test_decode_uGetBlk : decode .unpacker (req 0b101001 (0b1000000010#10) 0x200 0) = .ok (.uGetBlk 514 0x200) := by decide
theorem test_decode_uChkCrc : decode .unpacker (req 0b101010 (0b1000000101#10) 0 0) = .ok (.uChkCrc 517) := by decide

/-- No two rows of the opcode table share a command word: two masks agree on a bit where the two values differ (30_encoding.md R97). -/
theorem test_rows_disjoint :
    opcodeRows.Pairwise (fun a b => a.value &&& (a.mask &&& b.mask) ≠ b.value &&& (a.mask &&& b.mask)) := by decide

theorem test_row_count : opcodeRows.length = 34 := by decide

/-! ### One step of every operation (95_test_vectors.md sections 1 and 2) -/

/-- The state after reset with these bytes in PBUF and this cursor. -/
def packed (bytes : List Byte) (cur : BitVec 11) (off : BitVec 3) : State :=
  { State.reset with packer := { State.reset.packer with
      pbuf := bytes.zipIdx.map fun c => (c.2, c.1), cur := cur, off := off } }

/-- The state after reset with these valid bytes from physical index 0 of the ring buffer on, and these registers. -/
def ringed (bytes : List Byte) (start ptr : BitVec 16) (boff : BitVec 3) : State :=
  { State.reset with
    rb := bytes.zipIdx.map fun c => (c.2, c.1)
    unpacker := { State.reset.unpacker with start := start, ptr := ptr, boff := boff } }

/-- What a request on the Packer's port leaves: the response, `cur`, `off`, and the filled prefix. -/
def onPacker (s : State) (cw : BitVec 16) (opa : Word32 := 0) (opb : Word32 := 0) :
    Option (Response × Nat × Nat × List (Option Byte)) :=
  match step { s with inputs := [.request .packer ⟨cw, opa, opb⟩ []] } with
  | .next t => t.pResp.map fun r =>
      (r, t.packer.cur.toNat, t.packer.off.toNat, (List.range t.packer.length).map (Memory.read t.packer.pbuf))
  | _ => none

/-- What a request on the Unpacker's port leaves: the response and the registers. -/
def onUnpacker (s : State) (cw : BitVec 16) (opa : Word32 := 0) (opb : Word32 := 0) :
    Option (Response × Nat × Nat × Nat) :=
  match step { s with inputs := [.request .unpacker ⟨cw, opa, opb⟩ []] } with
  | .next t => t.uResp.map fun r => (r, t.unpacker.start.toNat, t.unpacker.ptr.toNat, t.unpacker.boff.toNat)
  | _ => none

/-- A filled prefix all of whose bytes have been written. -/
def bytes (l : List Byte) : List (Option Byte) := l.map some

theorem test_step_pAddN_in_a_byte : onPacker (packed [0x50] 0 3) 0x0003 5 0 =
    some (⟨.ok, 0⟩, 0, 6, bytes [0x5A]) := by decide
theorem test_step_pAddN_width : onPacker (packed [0x7F, 0xFF, 0xFF, 0xFF, 0xFF, 0xFF, 0xFF, 0xFF, 0xFF, 0xFF, 0xFF, 0xFF, 0xFF, 0xFF, 0xFF, 0xFF] 16 0) 0x0021 1 0 =
    some (⟨.width, 0⟩, 16, 0, bytes [0x7F, 0xFF, 0xFF, 0xFF, 0xFF, 0xFF, 0xFF, 0xFF, 0xFF, 0xFF, 0xFF, 0xFF, 0xFF, 0xFF, 0xFF, 0xFF]) := by decide
theorem test_step_pAdd8 : onPacker (packed [] 0 0) 0x0400 0x1FF 0 =
    some (⟨.ok, 0⟩, 1, 1, bytes [0x7F, 0xC0]) := by decide
theorem test_step_pAdd16 : onPacker (packed [0x03] 1 0) 0x0800 100 0 =
    some (⟨.ok, 0⟩, 3, 2, bytes [0x03, 0x80, 0x99, 0x80]) := by decide
theorem test_step_pAdd32 : onPacker (packed [] 0 0) 0x0C00 0x12345678 0 =
    some (⟨.ok, 0⟩, 4, 4, bytes [0x09, 0x8D, 0x8A, 0xE7, 0xC0]) := by decide
theorem test_step_pAddF : onPacker (packed [] 0 0) 0x1000 0x7FC00000 0 =
    some (⟨.ok, 0⟩, 4, 4, bytes [0x3F, 0xF0, 0x80, 0x80, 0x80]) := by decide
theorem test_step_pAddBlk : onPacker ({ packed [] 0 0 with hm := [(0x100, 0xA5), (0x101, 0x3C)] }) 0x1402 0x100 0 =
    some (⟨.ok, 0⟩, 2, 2, bytes [0x52, 0xCF, 0x80]) := by decide
theorem test_step_pAddBlk_wraps : onPacker ({ packed [] 0 0 with hm := [(0, 0x3C), (0xFFFFFFFF, 0xA5)] }) 0x1402 0xFFFFFFFF 0 =
    some (⟨.ok, 0⟩, 2, 2, bytes [0x52, 0xCF, 0x80]) := by decide
theorem test_step_pBeginQ : onPacker (packed [0x10, 0x99] 2 0) 0x2050 0 0 =
    some (⟨.ok, 0⟩, 1, 0, bytes [0x50]) := by decide
theorem test_step_pBeginA : onPacker (packed [0x10, 0x99] 1 3) 0x2400 0 0 =
    some (⟨.ok, 0⟩, 0, 0, bytes []) := by decide
theorem test_step_pHBeginQ : onPacker (packed [0x10, 0x99] 2 0) 0x2855 0 0 =
    some (⟨.ok, 0⟩, 1, 0, bytes [0x55]) := by decide
theorem test_step_pHBeginA : onPacker (packed [0x10, 0x99] 1 3) 0x2C00 0 0 =
    some (⟨.ok, 0⟩, 0, 0, bytes []) := by decide
theorem test_step_pEnd_pads : onPacker (packed [0x03, 0x80, 0x99, 0x80] 3 2) 0x3000 0 0 =
    some (⟨.ok, 0⟩, 5, 0, bytes [0x03, 0x80, 0x99, 0x80, 0xE0]) := by decide
theorem test_step_pEnd_empty : onPacker (packed [] 0 0) 0x3000 0 0 =
    some (⟨.ok, 0⟩, 1, 0, bytes [0x00]) := by decide
theorem test_step_pHEnd : onPacker (packed [0x55, 0x89, 0x8D, 0x80] 3 2) 0x3400 0 0 =
    some (⟨.ok, 0⟩, 7, 0, bytes [0x55, 0x89, 0x8D, 0x80, 0xA0, 0x0A, 0x00]) := by decide
theorem test_step_pHEnd_overflow : onPacker (packed [0x7F, 0xFF, 0xFF, 0xFF, 0xFF, 0xFF, 0xFF, 0xFF, 0xFF, 0xFF, 0xFF, 0xFF, 0xFF, 0xFF] 14 0) 0x3400 0 0 =
    some (⟨.overflow, 0⟩, 14, 0, bytes [0x7F, 0xFF, 0xFF, 0xFF, 0xFF, 0xFF, 0xFF, 0xFF, 0xFF, 0xFF, 0xFF, 0xFF, 0xFF, 0xFF]) := by decide
theorem test_step_pLen : onPacker (packed [0x03, 0x80, 0x99, 0x80] 3 2) 0x3800 0 0 =
    some (⟨.ok, 4⟩, 3, 2, bytes [0x03, 0x80, 0x99, 0x80]) := by decide
theorem test_step_pRdBuf : onPacker (packed [0x03, 0x80, 0x99, 0x80] 3 2) 0x3C03 0 0 =
    some (⟨.ok, 0x80⟩, 3, 2, bytes [0x03, 0x80, 0x99, 0x80]) := by decide
theorem test_step_pRdBuf_range : onPacker (packed [0x07, 0xBF, 0x0A, 0x00] 4 0) 0x3C04 0 0 =
    some (⟨.range, 0⟩, 4, 0, bytes [0x07, 0xBF, 0x0A, 0x00]) := by decide
theorem test_step_pMkQCtrl : onPacker (packed [0x10, 0x99] 1 3) 0x400F 0xFFFF 0 =
    some (⟨.ok, 0⟩, 5, 0, bytes [0x0F, 0xFF, 0xFF, 0xE0, 0xEB]) := by decide
theorem test_step_pMkACtrl : onPacker (packed [] 0 0) 0x4400 1 2 =
    some (⟨.ok, 0⟩, 6, 0, bytes [0x00, 0x80, 0xA0, 0x80, 0x90, 0xF3]) := by decide
theorem test_step_pMkQInfo : onPacker (packed [] 0 0) 0x480F 0 0 =
    some (⟨.ok, 0⟩, 2, 0, bytes [0x1F, 0xEE]) := by decide
theorem test_step_pMkAInfo : onPacker (packed [] 0 0) 0x4C00 0x00020001 3 =
    some (⟨.ok, 0⟩, 8, 0, bytes [0x00, 0x80, 0xA0, 0x80, 0x90, 0x80, 0x86, 0xEF]) := by decide
theorem test_step_pMkQWrite : onPacker (packed [] 0 0) 0x5005 20 123456 =
    some (⟨.ok, 0⟩, 9, 0, bytes [0x25, 0x80, 0x85, 0x80, 0x80, 0x8F, 0x89, 0x80, 0xDB]) := by decide
theorem test_step_pMkAWrite : onPacker (packed [] 0 0) 0x5400 123456 0 =
    some (⟨.ok, 0⟩, 6, 0, bytes [0x00, 0x80, 0xBC, 0xA4, 0x80, 0x81]) := by decide
theorem test_step_pMkQRead : onPacker (packed [] 0 0) 0x5802 7 0 =
    some (⟨.ok, 0⟩, 5, 0, bytes [0x32, 0x80, 0x81, 0xE0, 0xFB]) := by decide
theorem test_step_pMkARead : onPacker (packed [] 0 0) 0x5C00 0xFFFFFFFF 0 =
    some (⟨.ok, 0⟩, 6, 0, bytes [0x7F, 0xFF, 0xFF, 0xFF, 0xF8, 0xA1]) := by decide
theorem test_step_pMkQFlash : onPacker (packed [] 0 0) 0x6001 0x08000000 0xDEADBEEF =
    some (⟨.ok, 0⟩, 12, 0, bytes [0x41, 0x84, 0x80, 0x80, 0x80, 0x86, 0xFA, 0xDB, 0xBE, 0xF7, 0xC0, 0x82]) := by decide
theorem test_step_unassigned : onPacker (packed [0x50] 0 3) 0x1800 0 0 =
    some (⟨.illegal, 0⟩, 0, 3, bytes [0x50]) := by decide
theorem test_step_mustBeZero_before_width : onPacker (packed [0x50] 0 3) 0x0040 1 0 =
    some (⟨.illegal, 0⟩, 0, 3, bytes [0x50]) := by decide
theorem test_step_otherUnit : onPacker (packed [0x50] 0 3) 0x8400 0 0 =
    some (⟨.illegal, 0⟩, 0, 3, bytes [0x50]) := by decide

theorem test_step_uReset : onUnpacker (ringed [] 3 4 5) 0x8000 21 3 =
    some (⟨.ok, 0⟩, 5, 3, 0) := by decide
theorem test_step_uId : onUnpacker (ringed [0x89, 0x80, 0xDB, 0xEE, 0xEE, 0xEE, 0xEE, 0xEE, 0xEE, 0xEE, 0x25, 0x80, 0x85, 0x80, 0x80, 0x8F] 10 3 2) 0x8400 0 0 =
    some (⟨.ok, 5⟩, 10, 3, 2) := by decide
theorem test_step_uCmd : onUnpacker (ringed [0x89, 0x80, 0xDB, 0xEE, 0xEE, 0xEE, 0xEE, 0xEE, 0xEE, 0xEE, 0x25, 0x80, 0x85, 0x80, 0x80, 0x8F] 10 3 2) 0x8800 0 0 =
    some (⟨.ok, 2⟩, 10, 3, 2) := by decide
theorem test_step_uHCmd : onUnpacker (ringed [0x07, 0xBF, 0x0A, 0x00] 1 0 0) 0x8C00 0 0 =
    some (⟨.ok, 0xBF⟩, 1, 0, 0) := by decide
theorem test_step_uGetU8 : onUnpacker (ringed [0x7F, 0xE0, 0x80, 0x87, 0xFB, 0xFF, 0xFE, 0x83] 0 0 0) 0x9000 0 0 =
    some (⟨.ok, 255⟩, 0, 1, 1) := by decide
theorem test_step_uGetU8_range : onUnpacker (ringed [0x7F, 0xE0, 0x80, 0x87, 0xFB, 0xFF, 0xFE, 0x83] 0 0xFFFF 0) 0x9000 0 0 =
    some (⟨.range, 0⟩, 0, 65535, 0) := by decide
theorem test_step_uGetI8 : onUnpacker (ringed [0x7F, 0xE0, 0x80, 0x87, 0xFB, 0xFF, 0xFE, 0x83] 0 0 0) 0x9400 0 0 =
    some (⟨.ok, 0xFFFFFFFF⟩, 0, 1, 1) := by decide
theorem test_step_uGetI8_positive : onUnpacker (ringed [0x7F, 0xE0, 0x80, 0x87, 0xFB, 0xFF, 0xFE, 0x83] 0 3 3) 0x9400 0 0 =
    some (⟨.ok, 127⟩, 0, 4, 4) := by decide
theorem test_step_uGetU16 : onUnpacker (ringed [0x7F, 0xE0, 0x80, 0x87, 0xFB, 0xFF, 0xFE, 0x83] 0 1 1) 0x9800 0 0 =
    some (⟨.ok, 32768⟩, 0, 3, 3) := by decide
theorem test_step_uGetI16 : onUnpacker (ringed [0x7F, 0xE0, 0x80, 0x87, 0xFB, 0xFF, 0xFE, 0x83] 0 1 1) 0x9C00 0 0 =
    some (⟨.ok, 0xFFFF8000⟩, 0, 3, 3) := by decide
theorem test_step_uGetI16_positive : onUnpacker (ringed [0x7F, 0xE0, 0x80, 0x87, 0xFB, 0xFF, 0xFE, 0x83] 0 4 4) 0x9C00 0 0 =
    some (⟨.ok, 32767⟩, 0, 6, 6) := by decide
theorem test_step_uGetI32_wrapped : onUnpacker (ringed [0x89, 0x80, 0xDB, 0xEE, 0xEE, 0xEE, 0xEE, 0xEE, 0xEE, 0xEE, 0x25, 0x80, 0x85, 0x80, 0x80, 0x8F] 10 3 2) 0xA000 0 0 =
    some (⟨.ok, 123456⟩, 10, 7, 6) := by decide
theorem test_step_uGetBlk_range : onUnpacker (ringed [0x7F, 0xE0, 0x80, 0x87, 0xFB, 0xFF, 0xFE, 0x83] 0 0xFFFE 0) 0xA402 0x200 0 =
    some (⟨.range, 0⟩, 0, 65534, 0) := by decide
theorem test_step_uChkCrc_wrapped : onUnpacker (ringed [0x89, 0x80, 0xDB, 0xEE, 0xEE, 0xEE, 0xEE, 0xEE, 0xEE, 0xEE, 0x25, 0x80, 0x85, 0x80, 0x80, 0x8F] 10 1 0) 0xA809 0 0 =
    some (⟨.ok, 1⟩, 10, 1, 0) := by decide
theorem test_step_uChkCrc_too_long : onUnpacker (ringed [0x7F, 0xE0, 0x80, 0x87, 0xFB, 0xFF, 0xFE, 0x83] 0 0 0) 0xA811 0 0 =
    some (⟨.ok, 0⟩, 0, 0, 0) := by decide
theorem test_step_otherPort : onUnpacker (ringed [0x7F, 0xE0, 0x80, 0x87, 0xFB, 0xFF, 0xFE, 0x83] 0 1 2) 0x3800 0 0 =
    some (⟨.illegal, 0⟩, 0, 1, 2) := by decide

/-- U.GETBLK stores the two bytes of its block (95_test_vectors.md section 2.4). -/
theorem test_step_uGetBlk :
    (match exec (.uGetBlk 2 0x200) (ringed [0x52, 0xCF, 0x80, 0xB9] 0 0 0) with
      | .next t => some (t.uResp, t.hm, t.unpacker.ptr.toNat, t.unpacker.boff.toNat)
      | _ => none) = some (some ⟨.ok, 0⟩, [(0x200, 0xA5), (0x201, 0x3C)], 2, 2) := by decide

/-- A ring of two bytes that the receive engine writes inside a U.GETU16: logical byte 2 is physical byte 0 read again, after the write
(20_memory.md R55, R60). -/
def rewritten : State := { ringed [0x7F, 0x00] 0 0 0 with
  par := { Config.defaults with rbCap := 2, rbCap_legal := by decide } }

theorem test_step_engine_writes_between_reads :
    (match step { rewritten with inputs := [.request .unpacker ⟨0x9800, 0, 0⟩ [⟨2, 0, some 0x00⟩]] } with
      | .next t => some (t.uResp, t.rb, t.landing)
      | _ => none) = some (some ⟨.ok, 0xFE00⟩, [(0, 0x00), (1, 0x00)], []) := by decide

/-- A host byte that another agent is writing is busy until it is written (20_memory.md R65). -/
theorem test_step_host_agent :
    (match step { packed [] 0 0 with hmBusy := [5, 7], inputs := [.hostWrite 7 0xA5] } with
      | .next t => some (t.hm, t.hmBusy)
      | _ => none) = some ([(7, 0xA5)], [5]) := by decide

theorem test_insertAddress : insertAddress 6 [5, 7] = [5, 6, 7] ∧ insertAddress 7 [5, 7] = [5, 7] := by decide

/-- The checksum's check values (45_checksum.md R208, 95_test_vectors.md section 2.5). -/
theorem test_checksum_nine_digits : checksum [0x31, 0x32, 0x33, 0x34, 0x35, 0x36, 0x37, 0x38, 0x39] = 0x65 := by decide
theorem test_checksum_control_query : checksum [0x03, 0x80, 0x99, 0x80] = 0x60 := by decide
theorem test_checksum_ignores_bit7 : checksum [0xFF] = 0x38 ∧ checksum [0x7F] = 0x38 ∧ checksum [0x7F, 0x7F] = 0x5B := by
  decide

/-- The reset input leaves the cursors at 0 and the ring as it was (70_reset_and_hazards.md R250). -/
theorem test_step_reset :
    (match step { ringed [0x32] 3 4 5 with inputs := [.reset] } with
      | .next t => some (t.unpacker.start, t.unpacker.ptr, t.unpacker.boff, t.rb)
      | _ => none) = some (0, 0, 0, [(0, 0x32)]) := by decide

/-- The receive engine at an index the ring does not have (log 10). -/
theorem test_step_missing_ring_byte :
    (match step { State.reset with inputs := [.ringWrite 16 0] } with
      | .fault f => some f
      | _ => none) = some .noSuchRingByte := by decide

/-! ### For every statement with hypotheses, a case that meets them all; for every clause, one at the boundary of its range -/

/-- The outcome is a next state. -/
def completes : Host.Outcome State Fault Refusal → Bool
  | .next _ => true
  | _ => false

/-- The next state of an outcome that has one. -/
def nextOr (d : State) : Host.Outcome State Fault Refusal → State
  | .next t => t
  | _ => d

theorem eq_next {o : Host.Outcome State Fault Refusal} (d : State) (h : completes o = true) : o = .next (nextOr d o) := by
  cases o with
  | next t => rfl
  | fault f => cases h
  | refused r => cases h

/-- A run that is answered `OK` throughout. -/
theorem eq_run {ops : List Instr} {s : State} (h : (runAll ops s).isSome = true) :
    runAll ops s = some (((runAll ops s).getD ([], s)).1, ((runAll ops s).getD ([], s)).2) := by
  cases h' : runAll ops s with
  | none => rw [h'] at h; cases h
  | some r => rfl

/-- Four bytes, the last partly filled: a control query before its checksum. -/
def partly : State := packed [0x03, 0x80, 0x99, 0x80] 3 2

/-- `n` whole bytes in PBUF, framed. -/
def filled (n : Nat) : State := packed (0x7F :: List.replicate (n - 1) 0xFF) (BitVec.ofNat 11 n) 0

/-- The ring of 95_test_vectors.md section 1.5: a write query at physical index 10, across the end. -/
def wrapped (start ptr : BitVec 16) : State :=
  ringed [0x89, 0x80, 0xDB, 0xEE, 0xEE, 0xEE, 0xEE, 0xEE, 0xEE, 0xEE, 0x25, 0x80, 0x85, 0x80, 0x80, 0x8F] start ptr 0

/-- The state with one input pending. -/
def pending (i : Input) (s : State) : State := { s with inputs := [i] }

/-- Two acts of the receive engine during an operation, at the ends of a ring of 16 bytes. -/
def actsAtTheEnd : List Landing := [⟨0, 15, some 0x80⟩, ⟨1, 0, none⟩]

theorem witness_DecodeInvertsEncode : (Instr.pAddN 63 0xFFFFFFFF).wellFormed = true ∧
    (Instr.pAddBlk 1023 0).wellFormed = true ∧ (Instr.pRdBuf 1023).wellFormed = true ∧
    (Instr.uGetBlk 1023 0).wellFormed = true ∧ (Instr.uChkCrc 1023).wellFormed = true := by decide

theorem witness_DecodedRequestReencodes : decode .packer ⟨0x003F, 7, 9⟩ = .ok (.pAddN 63 7) ∧
    decode .unpacker ⟨0xABFF, 7, 9⟩ = .ok (.uChkCrc 1023) := by decide

theorem witness_UnusedOperandBitsReachNothing :
    (0x1FF#32 &&& usedOpa (opOf 0x0400) = 0xFF#32 &&& usedOpa (opOf 0x0400)) ∧
    (9#32 &&& usedOpb (opOf 0x0400) = 0#32 &&& usedOpb (opOf 0x0400)) := by decide

theorem witness_IllegalExactlyOffTheOpcodeMap :
    (∀ row ∈ opcodeRows, ¬ row.Matches .packer 0x0040) ∧ (∃ row ∈ opcodeRows, row.Matches .packer 0x003F) ∧
    (∀ row ∈ opcodeRows, ¬ row.Matches .unpacker 0xAC00) ∧ (∃ row ∈ opcodeRows, row.Matches .unpacker 0xABFF) ∧
    (pending (.request .packer ⟨0x0040, 0, 0⟩ actsAtTheEnd) partly).inputs =
      [.request .packer ⟨0x0040, 0, 0⟩ actsAtTheEnd] ∧
    ∀ a ∈ actsAtTheEnd, a.index.toNat < partly.par.rbCap := by decide

theorem witness_StepRunsTheDecodedOperation :
    (pending (.request .packer ⟨0x3000, 0, 0⟩ actsAtTheEnd) partly).inputs =
      [.request .packer ⟨0x3000, 0, 0⟩ actsAtTheEnd] ∧
    (∀ a ∈ actsAtTheEnd, a.index.toNat < partly.par.rbCap) ∧
    decode .packer ⟨0x3000, 0, 0⟩ = .ok .pEnd := by decide

theorem witness_StepWithNothingPresentedChangesNothing : partly.inputs = [] := rfl

theorem witness_FailedRequestWritesNothing :
    (pending (.request .packer ⟨0x0000, 1, 0⟩ actsAtTheEnd) partly).inputs =
      [.request .packer ⟨0x0000, 1, 0⟩ actsAtTheEnd] ∧
    (∀ a ∈ actsAtTheEnd, a.index.toNat < partly.par.rbCap) ∧
    (onPacker partly 0x0000 1).map Prod.fst = some ⟨.width, 0⟩ := by decide

theorem witness_UnitsShareNoState : Instr.port .pEnd = .packer ∧ Instr.port .uCmd = .unpacker ∧
    exec .pEnd partly = .next (nextOr partly (exec .pEnd partly)) ∧
    exec .uCmd (wrapped 10 1) = .next (nextOr partly (exec .uCmd (wrapped 10 1))) :=
  ⟨rfl, rfl, eq_next _ (by decide), eq_next _ (by decide)⟩

theorem witness_UnitsDoNotSeeEachOther : Instr.port .pLen = .packer ∧ Instr.port (.uChkCrc 9) = .unpacker ∧
    exec .pLen partly = .next (nextOr partly (exec .pLen partly)) ∧
    exec (.uChkCrc 9) (wrapped 10 1) = .next (nextOr partly (exec (.uChkCrc 9) (wrapped 10 1))) :=
  ⟨rfl, rfl, eq_next _ (by decide), eq_next _ (by decide)⟩

theorem witness_HostMemoryIsReachedOnlyByBlockTransfers :
    exec (.uGetBlk 1 5) (wrapped 10 1) = .next (nextOr partly (exec (.uGetBlk 1 5) (wrapped 10 1))) ∧
    (∀ size addr, Instr.uGetBlk 1 5 ≠ .pAddBlk size addr) ∧
    exec (.pAddBlk 1 5) (packed [] 0 0) = .next (nextOr partly (exec (.pAddBlk 1 5) (packed [] 0 0))) ∧
    ∀ size addr, Instr.pAddBlk 1 5 ≠ .uGetBlk size addr :=
  ⟨eq_next _ (by decide), fun _ _ h => (by cases h), eq_next _ (by decide), fun _ _ h => by cases h⟩

theorem witness_StepKeepsTheStateLegal :
    (pending (.request .packer ⟨0x3400, 0, 0⟩ actsAtTheEnd) partly).Legal ∧
    step (pending (.request .packer ⟨0x3400, 0, 0⟩ actsAtTheEnd) partly) =
      .next (nextOr partly (step (pending (.request .packer ⟨0x3400, 0, 0⟩ actsAtTheEnd) partly))) ∧
    (pending (.request .packer ⟨0x3400, 0, 0⟩ actsAtTheEnd) partly).landing = [] :=
  ⟨by decide, eq_next _ (by decide), rfl⟩

theorem witness_FramingSurvivesEveryOperation : partly.Legal ∧ partly.packer.Framed ∧ Instr.pEnd ≠ .pHEnd ∧
    exec .pEnd partly = .next (nextOr partly (exec .pEnd partly)) :=
  ⟨by decide, by decide, by decide, eq_next _ (by decide)⟩

theorem witness_ParametersAndLengthTablesAreConstant :
    step (pending .reset partly) = .next (nextOr partly (step (pending .reset partly))) := eq_next _ (by decide)

theorem witness_ResetInputClearsTheCursors : (pending .reset partly).inputs = [.reset] := rfl

theorem witness_ReceiveEngineBytesAreRead : (15#16).toNat < (wrapped 10 0).par.rbCap ∧
    (pending (.ringWrite 15 7) (wrapped 10 0)).inputs = [.ringWrite 15 7] ∧
    (pending (.ringInvalid 15) (wrapped 10 0)).inputs = [.ringInvalid 15] ∧ (wrapped 10 0).landing = [] ∧
    ((wrapped 10 0).unpacker.start.toNat + 5) % (wrapped 10 0).par.rbCap = (15#16).toNat := by decide

theorem witness_EngineWritesBetweenTwoReadsAreSeen :
    { rewritten with landing := [⟨2, 0, some 0x00⟩] }.landing = [] ++ ⟨2, 0, some 0x00⟩ :: [] ∧
    (rewritten.unpacker.start.toNat + 2) % rewritten.par.rbCap = (0#16).toNat ∧ 2 ≤ 2 ∧
    (rewritten.unpacker.start.toNat + 0) % rewritten.par.rbCap = (0#16).toNat ∧ 0 < 2 ∧
    Memory.read rewritten.rb (0#16).toNat = some 0x7F ∧
    step (pending (.request .unpacker ⟨0x9800, 0, 0⟩ ([] ++ ⟨2, 0, some 0x00⟩ :: [])) rewritten) =
      .next (nextOr partly
        (step (pending (.request .unpacker ⟨0x9800, 0, 0⟩ ([] ++ ⟨2, 0, some 0x00⟩ :: [])) rewritten))) :=
  ⟨rfl, by decide, by decide, by decide, by decide, by decide, eq_next _ (by decide)⟩

theorem witness_HostAgentBytesAreRead :
    (pending (.hostWrite 0xFFFFFFFF 7) partly).inputs = [.hostWrite 0xFFFFFFFF 7] ∧
    (pending (.hostInvalid 0xFFFFFFFF) partly).inputs = [.hostInvalid 0xFFFFFFFF] ∧
    hostAddress 0xFFFFFFFE 1 = (0xFFFFFFFF#32).toNat := by decide

theorem witness_OnlyAMissingRingByteFaults :
    (pending (.ringInvalid 16) partly).inputs = [.ringInvalid 16] ∧ partly.par.rbCap ≤ (16#16).toNat ∧
    (16#16) ∈ (Input.request .packer ⟨0x3000, 0, 0⟩ [⟨0, 16, none⟩]).engineIndices ∧
    (16#16) ∈ (Input.ringInvalid 16).engineIndices ∧
    (pending (.ringWrite 15 7) partly).inputs = [.ringWrite 15 7] ∧ (15#16).toNat < partly.par.rbCap := by decide

theorem witness_AddNAppendsTheLowBits : (filled 15).Legal ∧ 1 ≤ 7 ∧ 7 ≤ 32 ∧
    bytesFor ((filled 15).packer.pos + 7) ≤ (filled 15).par.packCap ∧
    (packed [] 0 0).Legal ∧ bytesFor ((packed [] 0 0).packer.pos + 32) ≤ (packed [] 0 0).par.packCap := by decide

theorem witness_FixedWidthAddsAppendTheirFields : (filled 11).Legal ∧
    bytesFor ((filled 11).packer.pos + 8) ≤ (filled 11).par.packCap ∧
    bytesFor ((filled 11).packer.pos + 16) ≤ (filled 11).par.packCap ∧
    bytesFor ((filled 11).packer.pos + 32) ≤ (filled 11).par.packCap := by decide

theorem witness_AddsCheckWidthThenRoom : (33 = 0 ∨ 32 < 33) ∧
    (filled 16).par.packCap < bytesFor ((filled 16).packer.pos + 1) ∧
    (filled 15).par.packCap < bytesFor ((filled 15).packer.pos + 8) ∧
    (filled 14).par.packCap < bytesFor ((filled 14).packer.pos + 16) ∧
    (filled 12).par.packCap < bytesFor ((filled 12).packer.pos + 32) ∧
    (packed [] 0 0).par.packCap < bytesFor ((packed [] 0 0).packer.pos + 8 * 15) := by decide

theorem witness_AddBlockAppendsTheHostBytes : (packed [] 0 0).Legal ∧
    bytesFor ((packed [] 0 0).packer.pos + 8 * 14) ≤ (packed [] 0 0).par.packCap ∧
    ((0xFFFFFFFF#32).toNat + 1) % 2 ^ 32 = 0 ∧ 0 ∉ (packed [] 0 0).hmBusy ∧
    (filled 16).Legal ∧ bytesFor ((filled 16).packer.pos + 8 * 0) ≤ (filled 16).par.packCap := by decide

theorem witness_BeginQueryWritesTheHeader : partly.Legal := by decide

theorem witness_BeginAnswerOnlyRewinds : Instr.pHBeginA = .pBeginA ∨ Instr.pHBeginA = .pHBeginA := by decide

theorem witness_EndAppendsTheChecksumByte : (filled 15).Legal ∧
    (filled 15).packer.length + 1 ≤ (filled 15).par.packCap ∧ (packed [] 0 0).Legal ∧
    (packed [] 0 0).packer.length + 1 ≤ (packed [] 0 0).par.packCap := by decide

theorem witness_HostEndAppendsTheSuffix : (filled 13).Legal ∧
    (filled 13).packer.length + 3 ≤ (filled 13).par.packCap := by decide

theorem witness_EndOperationsCheckRoom : (filled 16).par.packCap < (filled 16).packer.length + 1 ∧
    (filled 14).par.packCap < (filled 14).packer.length + 3 := by decide

theorem witness_EndEqualsDepositingPadAndChecksum : partly.Legal ∧
    partly.packer.length + 1 ≤ partly.par.packCap ∧ exec .pEnd partly = .next (nextOr partly (exec .pEnd partly)) :=
  ⟨by decide, by decide, eq_next _ (by decide)⟩

theorem witness_ReadBufferExposesOnlyTheFilledPrefix : partly.Legal ∧ 3 < partly.packer.length ∧
    partly.packer.length ≤ 4 := by decide

theorem witness_BuildersLayOutTheirFrames : partly.Legal := by decide

theorem witness_FrameLengthsMatchTheTables : (filled 16).Legal := by decide

theorem witness_ReadersReturnTheirFields : ((wrapped 10 0xFFFE).unpacker.pos + 8) / 7 ≤ 65535 ∧
    ((wrapped 10 0xFFFD).unpacker.pos + 16) / 7 ≤ 65535 ∧ ((wrapped 10 0xFFFB).unpacker.pos + 32) / 7 ≤ 65535 := by
  decide

theorem witness_ReadersStopAtTheCursorsEnd : 65535 < ((wrapped 10 0xFFFF).unpacker.pos + 8) / 7 ∧
    65535 < ((wrapped 10 0xFFFE).unpacker.pos + 16) / 7 ∧ 65535 < ((wrapped 10 0xFFFC).unpacker.pos + 32) / 7 ∧
    65535 < ((wrapped 10 0xFFFE).unpacker.pos + 8 * 2) / 7 := by decide

theorem witness_GetBlockStoresTheFields : ((wrapped 10 0xFFFE).unpacker.pos + 8 * 1) / 7 ≤ 65535 ∧
    ((wrapped 10 0xFFFF).unpacker.pos + 8 * 0) / 7 ≤ 65535 := by decide

theorem witness_CheckCrcComparesTheTrailingField : (wrapped 10 1).Legal ∧ (wrapped 10 1).par.rbCap < 17 ∧
    0 < 1 ∧ 16 ≤ (wrapped 10 1).par.rbCap := by decide

theorem witness_PhysicalRunsAreTheCoveredBytes : (wrapped 10 1).Legal ∧ 15 ≤ (wrapped 10 1).par.rbCap - 1 := by decide

/-- The write query of 95_test_vectors.md section 1.2. -/
def writeQuery : List Byte := [0x25, 0x80, 0x85, 0x80, 0x80, 0x8F, 0x89, 0x80, 0xDB]

theorem witness_DecodingIsTransparentToWraparound :
    (wrapped 3 4).par.rbCap = (ringed writeQuery 7 1 0).par.rbCap ∧
    writeQuery.length ≤ (ringed writeQuery 7 1 0).par.rbCap ∧ 0 < writeQuery.length ∧
    10 < (ringed writeQuery 7 1 0).par.rbCap ∧ (ringed writeQuery 7 1 0).RingHoldsBytes 0 writeQuery ∧
    (wrapped 3 4).RingHoldsBytes 10 writeQuery ∧
    7 * (1#16).toNat + ([FieldKind.u16, FieldKind.i32].map FieldKind.width).sum ≤ 7 * writeQuery.length ∧
    7 * (1#16).toNat + ([FieldKind.u16, FieldKind.i32].map FieldKind.width).sum < 7 * 65536 :=
  ⟨by decide, by decide, by decide, by decide, State.ringHoldsBytes_quiet rfl (by decide),
    State.ringHoldsBytes_quiet rfl (by decide), by decide, by decide⟩

theorem witness_ReaderInvertsAdd : (packed [0x03] 1 0).Legal ∧
    exec (.pAddN (FieldKind.width .i16) 100) (packed [0x03] 1 0) =
      .next (nextOr partly (exec (.pAddN (FieldKind.width .i16) 100) (packed [0x03] 1 0))) ∧
    (nextOr partly (exec (.pAddN (FieldKind.width .i16) 100) (packed [0x03] 1 0))).pResp = some ⟨.ok, 0⟩ ∧
    (ringed [0x83, 0x80, 0x19, 0x80] 0 1 0).unpacker.pos = (packed [0x03] 1 0).packer.pos ∧
    (∀ i < 4, (packed [0x03] 1 0).packer.pos / 7 ≤ i →
      ((ringed [0x83, 0x80, 0x19, 0x80] 0 1 0).logicalByte i).setWidth 7 =
        ((nextOr partly (exec (.pAddN (FieldKind.width .i16) 100) (packed [0x03] 1 0))).packer.byte i).setWidth 7) ∧
    (nextOr partly (exec (.pAddN (FieldKind.width .i16) 100) (packed [0x03] 1 0))).packer.length = 4 :=
  ⟨by decide, eq_next _ (by decide), by decide, by decide, by decide, by decide⟩

/-- A query of two fields, built from primitives. -/
def queryOps : List Instr := .pBeginQ 2 5 ::
  ([(FieldKind.u16, 20#32), (FieldKind.i32, 123456#32)].map (fun f => Instr.pAddN f.1.width f.2) ++ [.pEnd])

/-- An answer of no field, built from primitives. -/
def answerOps : List Instr := .pBeginA :: (([] : List (FieldKind × BitVec 32)).map
  (fun f => Instr.pAddN f.1.width f.2) ++ [.pEnd])

/-- The last state of a run. -/
def ran (ops : List Instr) (s : State) : State := ((runAll ops s).getD ([], s)).2

theorem witness_FramesRoundTrip : partly.Legal ∧
    10 < (wrapped 3 4).par.rbCap ∧ (ran queryOps partly).packer.length ≤ (wrapped 3 4).par.rbCap ∧
    (wrapped 3 4).RingHolds 10 (ran queryOps partly).packer (ran queryOps partly).packer.length ∧
    runAll queryOps partly = some (((runAll queryOps partly).getD ([], partly)).1, ran queryOps partly) ∧
    (ran answerOps partly).packer.length ≤ (ringed [0x00] 3 4 5).par.rbCap ∧
    (ringed [0x00] 3 4 5).RingHolds 0 (ran answerOps partly).packer (ran answerOps partly).packer.length ∧
    runAll answerOps partly = some (((runAll answerOps partly).getD ([], partly)).1, ran answerOps partly) :=
  ⟨by decide, by decide, by decide, State.ringHolds_quiet rfl (by decide), eq_run (by decide), by decide,
    State.ringHolds_quiet rfl (by decide), eq_run (by decide)⟩

theorem witness_ChecksumCornerValues : (∀ b ∈ [0x00#8, 0x80#8], b.setWidth 7 = 0#7) ∧
    [0xFF#8].map (BitVec.setWidth 7) = [0x7F#8].map (BitVec.setWidth 7) := by decide

/-- The read query of 95_test_vectors.md section 1.3, with this byte 2. -/
def readQuery (b : Byte) : State := ringed [0x32, 0x80, b, 0xE0, 0xFB] 0 0 0

theorem witness_OneByteChangesAreDetected : (0x81#8).setWidth 7 ≠ (0x80#8).setWidth 7 ∧ (readQuery 0x81).Legal ∧
    (readQuery 0x80).Legal ∧ (readQuery 0x80).par.rbCap = (readQuery 0x81).par.rbCap ∧ 5 ≤ (readQuery 0x81).par.rbCap ∧
    exec (.uChkCrc 5) (readQuery 0x81) = .next (nextOr partly (exec (.uChkCrc 5) (readQuery 0x81))) ∧
    (nextOr partly (exec (.uChkCrc 5) (readQuery 0x81))).uResp = some ⟨.ok, 1⟩ ∧
    exec (.uChkCrc 5) (readQuery 0x80) = .next (nextOr partly (exec (.uChkCrc 5) (readQuery 0x80))) ∧
    (∀ j < 5, j ≠ 2 →
      ((readQuery 0x80).logicalByte j).setWidth 7 = ((readQuery 0x81).logicalByte j).setWidth 7) ∧
    ((readQuery 0x80).logicalByte 2).setWidth 7 ≠ ((readQuery 0x81).logicalByte 2).setWidth 7 ∧
    ((readQuery 0x01).logicalByte 2).setWidth 7 = ((readQuery 0x81).logicalByte 2).setWidth 7 :=
  ⟨by decide, by decide, by decide, by decide, by decide, eq_next _ (by decide), by decide, eq_next _ (by decide),
    by decide, by decide, by decide⟩

end Sys2Proof.Tests
end

section
/-! SUPPORT. What every operation keeps: how it completes on its port, and that what it may write stays legal. -/

namespace Sys2Proof.Machine

/-! ### The Packer's operations that can fail -/

/-- The Packer a Packer operation ends in, if it does not fail, is legal. -/
def LegalResult (cap : Nat) (r : Except Status Packer) : Prop := ∀ pk, r = .ok pk → pk.Legal cap

theorem LegalResult.ok {cap : Nat} {pk : Packer} (h : pk.Legal cap) : LegalResult cap (.ok pk) :=
  fun _ e => Except.ok.inj e ▸ h

theorem LegalResult.error (cap : Nat) (st : Status) : LegalResult cap (.error st) := fun _ e => nomatch e

/-- A sequence of primitives is legal when each is from a legal Packer (43_packer_composite.md R159). -/
theorem LegalResult.bind {cap : Nat} {r : Except Status Packer} {f : Packer → Except Status Packer}
    (hr : LegalResult cap r) (hf : ∀ pk, pk.Legal cap → LegalResult cap (f pk)) : LegalResult cap (r >>= f) := by
  cases r with
  | ok pk => exact hf pk (hr pk rfl)
  | error st => exact LegalResult.error cap st

section

variable {p : Config.Params} {pk : Packer}

theorem Packer.Legal.addField {w : Nat} (hl : pk.Legal p.packCap) (v : BitVec w) (n : Nat) :
    LegalResult p.packCap (pk.addField p.packCap v n) := by
  rcases Packer.addField_cases pk p.packCap v n with ⟨hroom, e⟩ | ⟨_, e⟩ <;> rw [e]
  · exact .ok (Packer.depositField_spec v p.packCap_legal.2 n hl hroom).1
  · exact .error _ _

theorem Packer.Legal.endFrame (hl : pk.Legal p.packCap) : LegalResult p.packCap (pk.endFrame p.packCap) := by
  rcases Nat.lt_or_ge p.packCap (pk.length + 1) with hfull | hroom
  · rw [Packer.endFrame_overflow hfull]; exact .error _ _
  · obtain ⟨pk', e, hl', -⟩ := Packer.endFrame_spec hl p.packCap_legal.2 hroom
    rw [e]; exact .ok hl'

theorem Packer.Legal.endHostFrame (hl : pk.Legal p.packCap) (term : Byte) :
    LegalResult p.packCap (pk.endHostFrame p.packCap term) := by
  rcases Nat.lt_or_ge p.packCap (pk.length + 3) with hfull | hroom
  · rw [Packer.endHostFrame_overflow term hfull]; exact .error _ _
  · obtain ⟨pk', e, hl', -⟩ := Packer.endHostFrame_spec term hl p.packCap_legal.2 hroom
    rw [e]; exact .ok hl'

/-- A block of bytes for which the room check finds room (41_packer_fields.md R118). -/
theorem Packer.Legal.depositBytes {bytes : List Byte} (hl : pk.Legal p.packCap)
    (hroom : bytesFor (pk.pos + 8 * bytes.length) ≤ p.packCap) : (pk.depositBytes bytes).Legal p.packCap := by
  obtain ⟨v, hv, -⟩ := Packer.depositBytes_eq bytes
  rw [hv]
  exact (Packer.depositField_spec v p.packCap_legal.2 _ hl hroom).1

theorem Packer.Legal.rewind {cap : Nat} (hl : pk.Legal cap) : pk.rewind.Legal cap := by
  obtain ⟨_, _, _, hwf, _⟩ := hl
  exact Packer.rewind_legal hwf

theorem Packer.Legal.beginHeader (hl : pk.Legal p.packCap) (hdr : Bits7) : (pk.beginHeader hdr).Legal p.packCap := by
  obtain ⟨_, _, _, hwf, _⟩ := hl
  obtain ⟨hlo, hhi⟩ := p.packCap_legal
  exact (Packer.beginHeader_spec hdr hwf (by omega) hhi).1

end

/-! ### The Unpacker's registers -/

theorem Unpacker.Legal.seek {up : Unpacker} {ringCap : Nat} (h : up.Legal ringCap) (k : Nat) :
    (up.seek k).Legal ringCap := by
  refine ⟨h.1, ?_⟩
  simp only [Unpacker.seek, BitVec.toNat_ofNat]
  omega

/-- A start taken modulo the capacity is an index of the ring (44_unpacker.md R172). -/
theorem toNat_ofNat_mod_lt (p : Config.Params) (k : Nat) : (BitVec.ofNat 16 (k % p.rbCap)).toNat < p.rbCap :=
  (Nat.mod_le _ _).trans_lt (Nat.mod_lt _ p.rbCap_legal.1)

/-! ### Completing -/

/-- The outcome of an operation of a port's unit: it completes, with a response on its own port; a Packer operation writes
the Packer alone, an Unpacker operation the Unpacker and the host memory alone (20_memory.md R66), and what was legal of them
stays so. -/
inductive CompletesOn (s : State) : Port → Host.Outcome State Fault Refusal → Prop
  | packer (pk : Packer) (resp : Response) (hpk : s.packer.Legal s.par.packCap → pk.Legal s.par.packCap) :
      CompletesOn s .packer (.next { s with packer := pk, pResp := some resp })
  | unpacker (up : Unpacker) (hm : Memory) (resp : Response)
      (hup : s.unpacker.Legal s.par.rbCap → up.Legal s.par.rbCap)
      (hhm : Memory.wf s.hm (2 ^ 32) → Memory.wf hm (2 ^ 32)) :
      CompletesOn s .unpacker (.next { s with unpacker := up, hm := hm, uResp := some resp })

/-- A response with nothing else written. -/
theorem State.answer_completesOn (s : State) (port : Port) (st : Status) (d : Word32) :
    CompletesOn s port (.next (s.answer port st d)) := by
  cases port with
  | packer => exact .packer s.packer _ id
  | unpacker => exact .unpacker s.unpacker s.hm _ id id

theorem State.raise_completesOn (s : State) (port : Port) (st : Status) : CompletesOn s port (s.raise port st) :=
  s.answer_completesOn port st 0

theorem State.finishPacker_completesOn {s : State} {r : Except Status Packer}
    (h : s.packer.Legal s.par.packCap → LegalResult s.par.packCap r) : CompletesOn s .packer (s.finishPacker r) := by
  cases r with
  | ok pk => exact .packer pk _ fun hl => h hl pk rfl
  | error st => exact s.raise_completesOn .packer st

theorem State.peekHeader_completesOn (s : State) (f : Byte → Word32) : CompletesOn s .unpacker (s.peekHeader f) := by
  rw [State.peekHeader_eq]
  exact .unpacker _ s.hm _ id id

theorem State.readField_completesOn (s : State) (n : Nat) (ext : BitVec n → Word32) :
    CompletesOn s .unpacker (s.readField n ext) := by
  unfold State.readField
  dsimp only
  split
  · exact s.raise_completesOn .unpacker .range
  · exact .unpacker _ s.hm _ (fun h => h.seek _) id

/-! ### One lemma per operation with checks or effects of its own -/

theorem execPAddN_completesOn (n : Nat) (v : BitVec 32) (s : State) : CompletesOn s .packer (execPAddN n v s) := by
  unfold execPAddN
  split
  · exact State.finishPacker_completesOn fun hl => hl.addField v n
  · exact s.raise_completesOn .packer .width

theorem execPAddBlk_completesOn (size : Nat) (addr : BitVec 32) (s : State) :
    CompletesOn s .packer (execPAddBlk size addr s) := by
  unfold execPAddBlk
  split
  · rename_i hroom
    refine State.finishPacker_completesOn fun hl => .ok ?_
    exact hl.depositBytes
      (by rw [State.hostBlock_length]; exact Packer.hasRoom_iff.mp hroom)
  · exact s.raise_completesOn .packer .overflow

theorem execPRdBuf_completesOn (index : Nat) (s : State) : CompletesOn s .packer (execPRdBuf index s) := by
  unfold execPRdBuf
  split
  · exact s.raise_completesOn .packer .range
  · exact s.answer_completesOn .packer .ok _

theorem execUReset_completesOn (start : BitVec 32) (ptr : BitVec 16) (s : State) :
    CompletesOn s .unpacker (execUReset start ptr s) :=
  .unpacker _ s.hm _ (fun _ => ⟨toNat_ofNat_mod_lt s.par start.toNat, Nat.zero_le _⟩) id

theorem execUGetBlk_completesOn (size : Nat) (addr : BitVec 32) (s : State) :
    CompletesOn s .unpacker (execUGetBlk size addr s) := by
  unfold execUGetBlk
  dsimp only
  split
  · exact s.raise_completesOn .unpacker .range
  · exact .unpacker _ _ _ (fun h => h.seek _) (Memory.writeBlock_wf addr _ size)

theorem execUChkCrc_completesOn (len : Nat) (s : State) : CompletesOn s .unpacker (execUChkCrc len s) := by
  unfold execUChkCrc
  split
  · exact s.answer_completesOn .unpacker .ok 0
  · exact .unpacker _ s.hm _ id id

/-- Every operation, from every state, completes on its port. The composite builders follow their rule's sequence
(43_packer_composite.md R150 to R158). -/
theorem exec_completesOn (i : Instr) (s : State) : CompletesOn s i.port (exec i s) := by
  cases i with
  | pAddN n v => exact execPAddN_completesOn n v s
  | pAdd8 v => exact State.finishPacker_completesOn fun hl => hl.addField v 8
  | pAdd16 v => exact State.finishPacker_completesOn fun hl => hl.addField v 16
  | pAdd32 v => exact State.finishPacker_completesOn fun hl => hl.addField v 32
  | pAddF v => exact State.finishPacker_completesOn fun hl => hl.addField v 32
  | pAddBlk size addr => exact execPAddBlk_completesOn size addr s
  | pBeginQ cmd id => exact State.finishPacker_completesOn fun hl => .ok (hl.beginHeader _)
  | pBeginA => exact State.finishPacker_completesOn fun hl => .ok hl.rewind
  | pHBeginQ cmd => exact State.finishPacker_completesOn fun hl => .ok (hl.beginHeader _)
  | pHBeginA => exact State.finishPacker_completesOn fun hl => .ok hl.rewind
  | pEnd => exact State.finishPacker_completesOn fun hl => hl.endFrame
  | pHEnd => exact State.finishPacker_completesOn fun hl => hl.endHostFrame s.par.hostTerm
  | pLen => exact s.answer_completesOn .packer .ok _
  | pRdBuf index => exact execPRdBuf_completesOn index s
  | pMkQCtrl id v =>
    exact State.finishPacker_completesOn fun hl => ((hl.beginHeader _).addField v 16).bind fun _ h => h.endFrame
  | pMkACtrl v w =>
    exact State.finishPacker_completesOn fun hl =>
      (hl.rewind.addField v 16).bind fun _ h => (h.addField w 16).bind fun _ h => h.endFrame
  | pMkQInfo id => exact State.finishPacker_completesOn fun hl => (hl.beginHeader _).endFrame
  | pMkAInfo v0 v1 v2 =>
    exact State.finishPacker_completesOn fun hl =>
      (hl.rewind.addField v0 16).bind fun _ h =>
        (h.addField v1 16).bind fun _ h => (h.addField v2 16).bind fun _ h => h.endFrame
  | pMkQWrite id index v =>
    exact State.finishPacker_completesOn fun hl =>
      ((hl.beginHeader _).addField index 16).bind fun _ h => (h.addField v 32).bind fun _ h => h.endFrame
  | pMkAWrite v => exact State.finishPacker_completesOn fun hl => (hl.rewind.addField v 32).bind fun _ h => h.endFrame
  | pMkQRead id index =>
    exact State.finishPacker_completesOn fun hl => ((hl.beginHeader _).addField index 16).bind fun _ h => h.endFrame
  | pMkARead v => exact State.finishPacker_completesOn fun hl => (hl.rewind.addField v 32).bind fun _ h => h.endFrame
  | pMkQFlash id address word =>
    exact State.finishPacker_completesOn fun hl =>
      ((hl.beginHeader _).addField address 32).bind fun _ h => (h.addField word 32).bind fun _ h => h.endFrame
  | uReset start ptr => exact execUReset_completesOn start ptr s
  | uId => exact s.peekHeader_completesOn fun b => (b.extractLsb' 0 4).setWidth 32
  | uCmd => exact s.peekHeader_completesOn fun b => (b.extractLsb' 4 3).setWidth 32
  | uHCmd => exact s.peekHeader_completesOn fun b => b.setWidth 32
  | uGetU8 => exact s.readField_completesOn 8 _
  | uGetI8 => exact s.readField_completesOn 8 _
  | uGetU16 => exact s.readField_completesOn 16 _
  | uGetI16 => exact s.readField_completesOn 16 _
  | uGetI32 => exact s.readField_completesOn 32 _
  | uGetBlk size addr => exact execUGetBlk_completesOn size addr s
  | uChkCrc len => exact execUChkCrc_completesOn len s

/-- Every request completes, whether it encodes an operation or is `ILLEGAL` (60_exceptions.md R222). -/
theorem runRequest_completesOn (port : Port) (r : Request) (s : State) :
    ∃ p, CompletesOn s p (runRequest port r s) := by
  unfold runRequest
  split
  · exact ⟨_, exec_completesOn _ s⟩
  · exact ⟨port, s.raise_completesOn port .illegal⟩

/-- Whatever completes leaves a legal state, with the acts of the receive engine and the parameters as they stood. -/
theorem CompletesOn.legal {s t : State} {p : Port} (h : CompletesOn s p (.next t)) (hs : s.Legal) :
    t.Legal ∧ t.landing = s.landing ∧ t.par = s.par := by
  obtain ⟨hpk, hup, hrb, hhm, hbusy⟩ := hs
  cases h with
  | packer pk resp keeps => exact ⟨⟨keeps hpk, hup, hrb, hhm, hbusy⟩, rfl, rfl⟩
  | unpacker up hm resp keepsUp keepsHm => exact ⟨⟨hpk, keepsUp hup, hrb, keepsHm hhm, hbusy⟩, rfl, rfl⟩

end Sys2Proof.Machine
end

section
/-! SUPPORT. What each act of the outside world keeps, and the statements on one step and on legal states. -/

namespace Sys2Proof.Machine

/-- An operation that completes during acts of the receive engine: all of them lie inside the ring buffer, and have landed
after it. -/
theorem runDuring_eq_next {acts : List Landing} {run : State → Host.Outcome State Fault Refusal} {s t : State}
    (h : runDuring acts run s = .next t) : (∀ a ∈ acts, a.index.toNat < s.par.rbCap) ∧
      ∃ u, run { s with landing := acts } = .next u ∧
        t = { u with rb := Memory.afterActs u.rb u.landing, landing := [] } := by
  unfold runDuring at h
  split at h
  · rename_i hin
    refine ⟨by simpa using hin, ?_⟩
    cases hr : run { s with landing := acts } with
    | next u => rw [hr] at h; exact ⟨u, rfl, (Host.Outcome.next.inj h).symm⟩
    | fault f => rw [hr] at h; cases h
    | refused r => rw [hr] at h; cases h
  · cases h

/-- A request keeps the state legal, whatever the receive engine does during it, and leaves none of the engine's acts over
(20_memory.md R55). -/
theorem runDuring_runRequest_legal {acts : List Landing} {port : Port} {r : Request} {s t : State} (hs : s.Legal)
    (h : runDuring acts (runRequest port r) s = .next t) : t.Legal ∧ t.landing = [] := by
  obtain ⟨hacts, u, hu, rfl⟩ := runDuring_eq_next h
  obtain ⟨p, hc⟩ := runRequest_completesOn port r { s with landing := acts }
  rw [hu] at hc
  obtain ⟨⟨hpk, hup, hrb, hhm, hbusy⟩, hlanding, hpar⟩ := hc.legal hs
  have hland : ∀ a ∈ u.landing, a.index.toNat < u.par.rbCap := by
    rw [hlanding, hpar]; exact hacts
  exact ⟨⟨hpk, hup, Memory.afterActs_wf hrb hland, hhm, hbusy⟩, rfl⟩

theorem engineWrites_legal {index : BitVec 16} {value : Byte} {s t : State} (hs : s.Legal)
    (h : engineWrites index value s = .next t) : t.Legal ∧ t.landing = s.landing := by
  obtain ⟨hpk, hup, hrb, hhm, hbusy⟩ := hs
  unfold engineWrites at h
  split at h
  · cases h
    exact ⟨⟨hpk, hup, Memory.write_wf value hrb ‹_›, hhm, hbusy⟩, rfl⟩
  · cases h

theorem engineInvalidates_legal {index : BitVec 16} {s t : State} (hs : s.Legal)
    (h : engineInvalidates index s = .next t) : t.Legal ∧ t.landing = s.landing := by
  obtain ⟨hpk, hup, hrb, hhm, hbusy⟩ := hs
  unfold engineInvalidates at h
  split at h
  · cases h
    exact ⟨⟨hpk, hup, Memory.forget_wf _ hrb, hhm, hbusy⟩, rfl⟩
  · cases h

theorem agentWrites_legal {addr : BitVec 32} {value : Byte} {s t : State} (hs : s.Legal)
    (h : agentWrites addr value s = .next t) : t.Legal ∧ t.landing = s.landing := by
  obtain ⟨hpk, hup, hrb, hhm, hsorted, hbelow⟩ := hs
  cases h
  exact ⟨⟨hpk, hup, hrb, Memory.write_wf value hhm addr.isLt, hsorted.sublist List.filter_sublist,
    fun a ha => hbelow a (List.mem_of_mem_filter ha)⟩, rfl⟩

theorem agentInvalidates_legal {addr : BitVec 32} {s t : State} (hs : s.Legal)
    (h : agentInvalidates addr s = .next t) : t.Legal ∧ t.landing = s.landing := by
  obtain ⟨hpk, hup, hrb, hhm, hsorted, hbelow⟩ := hs
  cases h
  refine ⟨⟨hpk, hup, hrb, hhm, insertAddress_sorted hsorted, fun a ha => ?_⟩, rfl⟩
  rcases mem_insertAddress.mp ha with rfl | ha
  · exact addr.isLt
  · exact hbelow a ha

/-- A Packer with both cursors 0 and nothing of PBUF known (10_state.md R38, R39). -/
theorem Packer.legal_unwritten (cap resets hostReads : Nat) :
    (⟨[], 0, 0, resets, hostReads⟩ : Packer).Legal cap :=
  Packer.rewind_legal (pk := ⟨[], 0, 0, resets, hostReads⟩) (Memory.nil_wf cap)

/-- An Unpacker with all its cursors 0: the ring has an index 0 (10_state.md R38, 00_scope.md R7). -/
theorem Unpacker.legal_origin (p : Config.Params) (ringReads : Nat) :
    (⟨0, 0, 0, ringReads⟩ : Unpacker).Legal p.rbCap :=
  ⟨p.rbCap_legal.1, Nat.zero_le _⟩

theorem applyReset_legal {s t : State} (hs : s.Legal) (h : applyReset s = .next t) :
    t.Legal ∧ t.landing = s.landing := by
  obtain ⟨_, _, hrb, hhm, hbusy⟩ := hs
  cases h
  exact ⟨⟨Packer.legal_unwritten _ _ _, Unpacker.legal_origin s.par _, hrb, hhm, hbusy⟩, rfl⟩

/-- The effect of an input on the state that no longer holds it, as `step` gives it (`step_of_inputs_cons`). -/
def Input.effect : Input → State → Host.Outcome State Fault Refusal
  | .request port r acts => runDuring acts (runRequest port r)
  | .ringWrite index value => engineWrites index value
  | .ringInvalid index => engineInvalidates index
  | .hostWrite addr value => agentWrites addr value
  | .hostInvalid addr => agentInvalidates addr
  | .reset => applyReset

/-- With nothing presented the block does nothing (log 1). -/
theorem step_of_inputs_nil {s : State} (h : s.inputs = []) : step s = .next s := by
  unfold step; rw [h]

/-- A step is the effect of the nearest input. -/
theorem step_of_inputs_cons {s : State} {input : Input} {rest : List Input} (h : s.inputs = input :: rest) :
    step s = input.effect { s with inputs := rest } := by
  unfold step; rw [h]
  cases input <;> rfl

/-- Every input keeps the state legal and leaves no act of the receive engine over. -/
theorem Input.effect_legal {input : Input} {s t : State} (hs : s.Legal) (h : input.effect s = .next t) :
    t.Legal ∧ (s.landing = [] → t.landing = []) := by
  have keep : (t.Legal ∧ t.landing = s.landing) → t.Legal ∧ (s.landing = [] → t.landing = []) :=
    fun ⟨ht, hl⟩ => ⟨ht, hl.trans⟩
  cases input with
  | request port r acts =>
    obtain ⟨ht, hl⟩ := runDuring_runRequest_legal hs h
    exact ⟨ht, fun _ => hl⟩
  | ringWrite index value => exact keep (engineWrites_legal hs h)
  | ringInvalid index => exact keep (engineInvalidates_legal hs h)
  | hostWrite addr value => exact keep (agentWrites_legal hs h)
  | hostInvalid addr => exact keep (agentInvalidates_legal hs h)
  | reset => exact keep (applyReset_legal hs h)

/-- Settles O12: by the effect of the nearest input; `inputs` is no part of legality. -/
theorem stepKeepsTheStateLegal : Obligations.StepKeepsTheStateLegal := by
  intro s t hs h
  cases hin : s.inputs with
  | nil =>
    rw [step_of_inputs_nil hin] at h
    cases h
    exact ⟨hs, id⟩
  | cons input rest =>
    rw [step_of_inputs_cons hin] at h
    exact Input.effect_legal (s := { s with inputs := rest }) hs h

/-- Settles O7: the equation of `step` at an empty list of inputs. -/
theorem stepWithNothingPresentedChangesNothing : Obligations.StepWithNothingPresentedChangesNothing :=
  fun _ h => step_of_inputs_nil h

/-- Settles O13: nothing is listed in a memory, and the cursors are 0. -/
theorem resetStateIsLegal : Obligations.ResetStateIsLegal := by
  obtain ⟨_, hrb, hhm⟩ := reset_memories_wf
  exact ⟨⟨Packer.legal_unwritten _ _ _, Unpacker.legal_origin _ _, hrb, hhm, List.Pairwise.nil,
    fun _ h => nomatch h⟩, rfl⟩

end Sys2Proof.Machine
end

section
/-! SUPPORT. What an operation leaves unchanged, and what it depends on: the same operation on two states that agree on what its
unit looks at. -/

namespace Sys2Proof.Machine

/-! ### What every operation leaves -/

/-- An operation leaves the ring buffer, the engine's acts during it, the parameters and the pending inputs as they stand, and
all of the other unit (20_memory.md R66, 10_state.md R29). -/
theorem CompletesOn.frame {s t : State} {p : Port} (h : CompletesOn s p (.next t)) :
    t.rb = s.rb ∧ t.landing = s.landing ∧ t.par = s.par ∧ t.inputs = s.inputs ∧ t.hmBusy = s.hmBusy ∧
    (p = .packer → t.unpacker = s.unpacker ∧ t.uResp = s.uResp) ∧
    (p = .unpacker → t.packer = s.packer ∧ t.pResp = s.pResp) := by
  cases h with
  | packer pk resp => exact ⟨rfl, rfl, rfl, rfl, rfl, fun _ => ⟨rfl, rfl⟩, nofun⟩
  | unpacker up hm resp => exact ⟨rfl, rfl, rfl, rfl, rfl, nofun, fun _ => ⟨rfl, rfl⟩⟩

theorem CompletesOn.exists_next {s : State} {p : Port} {o : Host.Outcome State Fault Refusal}
    (h : CompletesOn s p o) : ∃ t, o = .next t := by
  cases h with
  | packer => exact ⟨_, rfl⟩
  | unpacker => exact ⟨_, rfl⟩

theorem CompletesOn.of_exec {i : Instr} {s t : State} (h : exec i s = .next t) : CompletesOn s i.port (.next t) :=
  h ▸ exec_completesOn i s

/-- Settles O9: the frame of every operation. -/
theorem unitsShareNoState : Obligations.UnitsShareNoState := by
  intro i s t h
  obtain ⟨hrb, hland, hpar, hin, -, hunits⟩ := (CompletesOn.of_exec h).frame
  exact ⟨hrb, hland, hpar, hin, hunits⟩

/-! ### The Packer's operations on two states with the same Packer -/

/-- Two states that agree on everything a Packer operation but P.ADDBLK looks at: the parameters and the Packer. -/
structure PackerAgrees (s u : State) : Prop where
  par : u.par = s.par
  packer : u.packer = s.packer

/-- Two outcomes that write the same Packer and the same response, each on its own state. -/
def PackerAlike (s u : State) (o o' : Host.Outcome State Fault Refusal) : Prop :=
  ∃ (pk : Packer) (resp : Response),
    o = .next { s with packer := pk, pResp := some resp } ∧ o' = .next { u with packer := pk, pResp := some resp }

section

variable {s u : State}

theorem PackerAgrees.answer (h : PackerAgrees s u) (st : Status) (d : Word32) :
    PackerAlike s u (.next (s.answer .packer st d)) (.next (u.answer .packer st d)) :=
  ⟨s.packer, ⟨st, d⟩, rfl, by rw [← h.packer]; rfl⟩

theorem PackerAgrees.finishPacker (h : PackerAgrees s u) (r : Except Status Packer) :
    PackerAlike s u (s.finishPacker r) (u.finishPacker r) := by
  cases r with
  | ok pk => exact ⟨pk, ⟨.ok, 0⟩, rfl, rfl⟩
  | error st => exact h.answer st 0

/-- What P.ADDBLK reads of the host memory: its bytes, which of them are being written, and the Packer's own count of reads. -/
theorem PackerAgrees.hostBlock (h : PackerAgrees s u) (hhm : u.hm = s.hm) (hbusy : u.hmBusy = s.hmBusy)
    (addr : Word32) (size : Nat) : u.hostBlock addr size = s.hostBlock addr size := by
  have hbyte : u.hostByte addr = s.hostByte addr := by
    funext i; simp only [State.hostByte, State.hostContent, h.packer, hhm, hbusy]
  simp only [State.hostBlock, hbyte]

theorem PackerAgrees.execPAddBlk (h : PackerAgrees s u) (hhm : u.hm = s.hm) (hbusy : u.hmBusy = s.hmBusy) (size : Nat)
    (addr : BitVec 32) : PackerAlike s u (execPAddBlk size addr s) (execPAddBlk size addr u) := by
  simp only [Machine.execPAddBlk, h.par, h.packer, h.hostBlock hhm hbusy]
  split
  · exact h.finishPacker _
  · exact h.answer .overflow 0

theorem PackerAgrees.execPAddN (h : PackerAgrees s u) (n : Nat) (v : BitVec 32) :
    PackerAlike s u (execPAddN n v s) (execPAddN n v u) := by
  simp only [Machine.execPAddN, h.par, h.packer]
  split
  · exact h.finishPacker _
  · exact h.answer .width 0

theorem PackerAgrees.execPLen (h : PackerAgrees s u) : PackerAlike s u (execPLen s) (execPLen u) := by
  simp only [Machine.execPLen, h.packer]
  exact h.answer .ok _

theorem PackerAgrees.execPRdBuf (h : PackerAgrees s u) (index : Nat) :
    PackerAlike s u (execPRdBuf index s) (execPRdBuf index u) := by
  simp only [Machine.execPRdBuf, h.packer]
  split
  · exact h.answer .range 0
  · exact h.answer .ok _

/-- A Packer operation looks at nothing but what `PackerAgrees` names, and P.ADDBLK at the host memory (20_memory.md R66,
41_packer_fields.md R118). Every operation that ends in `State.finishPacker` computes its Packer from those two alone. -/
theorem exec_packerAlike {i : Instr} (hp : i.port = .packer) (h : PackerAgrees s u)
    (hhost : ∀ size addr, i = .pAddBlk size addr → u.hm = s.hm ∧ u.hmBusy = s.hmBusy) :
    PackerAlike s u (exec i s) (exec i u) := by
  have ⟨hpar, hpk⟩ := h
  cases u
  cases hpar
  cases hpk
  cases i with
  | pAddN n v => exact h.execPAddN n v
  | pAddBlk size addr =>
    obtain ⟨hhm, hbusy⟩ := hhost size addr rfl
    exact h.execPAddBlk hhm hbusy size addr
  | pLen => exact h.execPLen
  | pRdBuf index => exact h.execPRdBuf index
  | pBeginQ | pBeginA | pHBeginQ | pHBeginA => exact h.finishPacker (.ok _)
  | pAdd8 | pAdd16 | pAdd32 | pAddF | pEnd | pHEnd | pMkQCtrl | pMkACtrl | pMkQInfo | pMkAInfo | pMkQWrite | pMkAWrite
  | pMkQRead | pMkARead | pMkQFlash => exact h.finishPacker _
  | _ => cases hp

end

/-! ### The Unpacker's operations on two states with the same Unpacker and ring buffer -/

/-- Two states that agree on everything an Unpacker operation looks at: the parameters, the Unpacker, the ring buffer and the
engine's acts on it. -/
structure UnpackerAgrees (s u : State) : Prop where
  par : u.par = s.par
  unpacker : u.unpacker = s.unpacker
  rb : u.rb = s.rb
  landing : u.landing = s.landing

section

variable {s u : State}

theorem UnpackerAgrees.ringRead (h : UnpackerAgrees s u) : u.ringRead = s.ringRead := by
  funext i p
  simp only [State.ringRead, State.ringAt, h.unpacker, h.rb, h.landing]

theorem UnpackerAgrees.logicalByte (h : UnpackerAgrees s u) : u.logicalByte = s.logicalByte := by
  funext i
  simp only [State.logicalByte, h.ringRead, h.unpacker, h.par]

theorem UnpackerAgrees.frameMatches (h : UnpackerAgrees s u) (len : Nat) : u.frameMatches len = s.frameMatches len := by
  rw [Bool.eq_iff_iff, State.frameMatches_iff, State.frameMatches_iff]
  simp only [State.firstRun, State.secondRun, h.ringRead, h.logicalByte, h.unpacker, h.par]

/-- Two outcomes that write the same Unpacker and the same response, and store alike in the host memory, each on its own
state. -/
def UnpackerAlike (s u : State) (store : Memory → Memory) (o o' : Host.Outcome State Fault Refusal) : Prop :=
  ∃ (up : Unpacker) (resp : Response),
    o = .next { s with unpacker := up, hm := store s.hm, uResp := some resp } ∧
    o' = .next { u with unpacker := up, hm := store u.hm, uResp := some resp }

theorem UnpackerAgrees.answer (h : UnpackerAgrees s u) (st : Status) (d : Word32) :
    UnpackerAlike s u id (.next (s.answer .unpacker st d)) (.next (u.answer .unpacker st d)) :=
  ⟨s.unpacker, ⟨st, d⟩, rfl, by rw [← h.unpacker]; rfl⟩

theorem UnpackerAgrees.peekHeader (h : UnpackerAgrees s u) (f : Byte → Word32) :
    UnpackerAlike s u id (s.peekHeader f) (u.peekHeader f) := by
  simp only [State.peekHeader, h.logicalByte, h.unpacker]
  exact ⟨_, _, rfl, rfl⟩

theorem UnpackerAgrees.readField (h : UnpackerAgrees s u) (n : Nat) (ext : BitVec n → Word32) :
    UnpackerAlike s u id (s.readField n ext) (u.readField n ext) := by
  simp only [State.readField, h.logicalByte, h.unpacker]
  split
  · exact h.answer .range 0
  · exact ⟨_, _, rfl, rfl⟩

theorem UnpackerAgrees.execUReset (h : UnpackerAgrees s u) (start : BitVec 32) (ptr : BitVec 16) :
    UnpackerAlike s u id (execUReset start ptr s) (execUReset start ptr u) := by
  refine ⟨_, _, rfl, ?_⟩
  simp only [Machine.execUReset, State.answer, h.unpacker, h.par, id]

theorem UnpackerAgrees.execUGetBlk (h : UnpackerAgrees s u) (size : Nat) (addr : BitVec 32) :
    ∃ store, UnpackerAlike s u store (execUGetBlk size addr s) (execUGetBlk size addr u) := by
  simp only [Machine.execUGetBlk, h.logicalByte, h.unpacker]
  split
  · exact ⟨id, h.answer .range 0⟩
  · exact ⟨fun m => Memory.writeBlock m addr _ size, _, _, rfl, rfl⟩

theorem UnpackerAgrees.execUChkCrc (h : UnpackerAgrees s u) (len : Nat) :
    UnpackerAlike s u id (execUChkCrc len s) (execUChkCrc len u) := by
  simp only [Machine.execUChkCrc, h.frameMatches, h.unpacker, h.par]
  split
  · exact h.answer .ok 0
  · exact ⟨s.unpacker.countRead, ⟨.ok, if s.frameMatches len then 1 else 0⟩, rfl, by rw [← h.par]; rfl⟩

/-- An Unpacker operation looks at nothing but what `UnpackerAgrees` names, and none but U.GETBLK stores in the host memory
(20_memory.md R66, 44_unpacker.md R182). -/
theorem exec_unpackerAlike {i : Instr} (hp : i.port = .unpacker) (h : UnpackerAgrees s u) :
    ∃ store, ((∀ size addr, i ≠ .uGetBlk size addr) → store = id) ∧ UnpackerAlike s u store (exec i s) (exec i u) := by
  cases i with
  | uGetBlk size addr =>
    obtain ⟨store, halike⟩ := h.execUGetBlk size addr
    exact ⟨store, fun hne => absurd rfl (hne size addr), halike⟩
  | uReset start ptr => exact ⟨id, fun _ => rfl, h.execUReset start ptr⟩
  | uId => exact ⟨id, fun _ => rfl, h.peekHeader fun b => (b.extractLsb' 0 4).setWidth 32⟩
  | uCmd => exact ⟨id, fun _ => rfl, h.peekHeader fun b => (b.extractLsb' 4 3).setWidth 32⟩
  | uHCmd => exact ⟨id, fun _ => rfl, h.peekHeader fun b => b.setWidth 32⟩
  | uGetU8 | uGetI8 | uGetU16 | uGetI16 | uGetI32 => exact ⟨id, fun _ => rfl, h.readField _ _⟩
  | uChkCrc len => exact ⟨id, fun _ => rfl, h.execUChkCrc len⟩
  | _ => cases hp

end

/-- Settles O10: the two states agree on what the operation's unit looks at. -/
theorem unitsDoNotSeeEachOther : Obligations.UnitsDoNotSeeEachOther := by
  intro i s t h
  refine ⟨fun hp up rb acts resp => ?_, fun hp pk resp => ?_⟩
  · obtain ⟨_, _, hs, hu⟩ := exec_packerAlike (s := s)
      (u := { s with unpacker := up, rb := rb, landing := acts, uResp := resp }) hp ⟨rfl, rfl⟩ fun _ _ _ => ⟨rfl, rfl⟩
    rw [hu]
    cases h.symm.trans hs
    rfl
  · obtain ⟨_, -, _, _, hs, hu⟩ := exec_unpackerAlike (s := s) (u := { s with packer := pk, pResp := resp }) hp
      ⟨rfl, rfl, rfl, rfl⟩
    rw [hu]
    cases h.symm.trans hs
    rfl

/-- Only U.GETBLK writes the host memory (44_unpacker.md R182). -/
theorem exec_hm {i : Instr} {s t : State} (h : exec i s = .next t) (hi : ∀ size addr, i ≠ .uGetBlk size addr) :
    t.hm = s.hm := by
  cases hp : i.port with
  | packer =>
    obtain ⟨_, _, hs, -⟩ := exec_packerAlike (s := s) hp ⟨rfl, rfl⟩ fun _ _ _ => ⟨rfl, rfl⟩
    cases h.symm.trans hs
    rfl
  | unpacker =>
    obtain ⟨store, hid, _, _, hs, -⟩ := exec_unpackerAlike (s := s) hp ⟨rfl, rfl, rfl, rfl⟩
    cases h.symm.trans hs
    exact congrFun (hid hi) s.hm

/-- Settles O11: the two states agree on what the operation looks at, and what it stores does not depend on the host memory. -/
theorem hostMemoryIsReachedOnlyByBlockTransfers : Obligations.HostMemoryIsReachedOnlyByBlockTransfers := by
  intro i s t h
  obtain ⟨-, -, -, -, hbusy, -⟩ := (CompletesOn.of_exec h).frame
  refine ⟨hbusy, exec_hm h, fun hi m busy => ?_⟩
  cases hp : i.port with
  | packer =>
    obtain ⟨_, _, hs, hu⟩ := exec_packerAlike (s := s) (u := { s with hm := m, hmBusy := busy }) hp
      ⟨rfl, rfl⟩ fun size addr e => absurd e (hi size addr)
    cases h.symm.trans hs
    exact ⟨m, hu⟩
  | unpacker =>
    obtain ⟨store, -, _, _, hs, hu⟩ := exec_unpackerAlike (s := s) (u := { s with hm := m, hmBusy := busy }) hp
      ⟨rfl, rfl, rfl, rfl⟩
    cases h.symm.trans hs
    exact ⟨store m, hu⟩

end Sys2Proof.Machine
end

section
/-! SUPPORT. The receive engine: its writes and invalidations between operations and inside one, and when a step stops. -/

namespace Sys2Proof.Machine

/-! ### Between operations -/

theorem engineWrites_inside {index : BitVec 16} {value : Byte} {s : State} (h : index.toNat < s.par.rbCap) :
    engineWrites index value s = .next { s with rb := Memory.write s.rb index.toNat value } := if_pos h

theorem engineWrites_outside {index : BitVec 16} {value : Byte} {s : State} (h : s.par.rbCap ≤ index.toNat) :
    engineWrites index value s = .fault .noSuchRingByte := if_neg (Nat.not_lt.mpr h)

theorem engineInvalidates_inside {index : BitVec 16} {s : State} (h : index.toNat < s.par.rbCap) :
    engineInvalidates index s = .next { s with rb := Memory.forget s.rb index.toNat } := if_pos h

theorem engineInvalidates_outside {index : BitVec 16} {s : State} (h : s.par.rbCap ≤ index.toNat) :
    engineInvalidates index s = .fault .noSuchRingByte := if_neg (Nat.not_lt.mpr h)

/-- Between operations, a logical byte is the ring buffer's byte where it lies, if that is valid (44_unpacker.md R171). -/
theorem State.logicalByte_quiet {s : State} {i p : Nat} {b : Byte} (hl : s.landing = [])
    (hp : (s.unpacker.start.toNat + i) % s.par.rbCap = p) (h : Memory.read s.rb p = some b) : s.logicalByte i = b :=
  State.logicalByte_of_read (by rw [State.ringAt_quiet hl, hp, h])

/-- Settles O17: the equation of each act of the engine, and what the act leaves of the ring buffer. -/
theorem receiveEngineBytesAreRead : Obligations.ReceiveEngineBytesAreRead := by
  intro s index value rest hindex
  refine ⟨fun hin => ⟨_, (step_of_inputs_cons hin).trans (engineWrites_inside hindex), rfl, ?_, ?_, ?_⟩,
    fun hin => ⟨_, (step_of_inputs_cons hin).trans (engineInvalidates_inside hindex), rfl, ?_, ?_⟩⟩
  · exact Memory.read_write_same s.rb index.toNat value
  · exact fun hl i hi => State.logicalByte_quiet hl hi (Memory.read_write_same s.rb index.toNat value)
  · exact fun p hp => Memory.read_write_ne s.rb value hp
  · exact (Memory.read_forget s.rb index.toNat index.toNat).trans (if_pos rfl)
  · exact fun p hp => (Memory.read_forget s.rb index.toNat p).trans (if_neg hp)

/-! ### Inside an operation -/

/-- After acts of the engine, a byte holds what the last act there left (20_memory.md R55, R56). -/
theorem Memory.read_afterActs_last (rb : Memory) (earlier later : List Landing) (a : Landing)
    (h : ∀ b ∈ later, b.index ≠ a.index) :
    Memory.read (Memory.afterActs rb (earlier ++ a :: later)) a.index.toNat = a.value := by
  rw [Memory.afterActs_append, Memory.afterActs_cons,
    Memory.read_afterActs_ne _ fun b hb => BitVec.toNat_ne_iff_ne.mpr (h b hb), Landing.read_apply, if_pos rfl]

/-- From the logical byte on before which an act stands, a byte of the ring buffer reads as the act left it, unless a later act
is there. -/
theorem State.read_ringAt_of_landed {s : State} {earlier later : List Landing} {a : Landing} {i : Nat}
    (hs : s.landing = earlier ++ a :: later) (hearlier : ∀ b ∈ earlier, b.before ≤ a.before)
    (hlater : ∀ b ∈ later, b.index ≠ a.index) (hi : a.before ≤ i) :
    Memory.read (s.ringAt i) a.index.toNat = a.value := by
  have landed : ∀ b ∈ earlier, decide (b.before ≤ i) = true := fun b hb =>
    decide_eq_true ((hearlier b hb).trans hi)
  simp only [State.ringAt, hs, List.takeWhile_append_of_pos landed, List.takeWhile_cons, hi, decide_true, if_true]
  exact Memory.read_afterActs_last _ _ _ _ fun b hb => hlater b ((List.takeWhile_sublist _).subset hb)

/-- What a `takeWhile` takes stands before the first element that stops it. -/
theorem mem_of_mem_takeWhile_append {α : Type} {p : α → Bool} {l l' : List α} {x y : α} (hx : p x = false)
    (h : y ∈ (l ++ x :: l').takeWhile p) : y ∈ l := by
  rw [List.takeWhile_append, List.takeWhile_cons_of_neg (by simp [hx]), List.append_nil] at h
  split at h
  · exact h
  · exact (List.takeWhile_sublist p).subset h

/-- Before the logical byte before which an act stands, a byte with no earlier act reads as it was when the operation began. -/
theorem State.read_ringAt_of_not_landed {s : State} {earlier later : List Landing} {a : Landing} {i : Nat}
    (hs : s.landing = earlier ++ a :: later) (hearlier : ∀ b ∈ earlier, b.index ≠ a.index) (hi : i < a.before) :
    Memory.read (s.ringAt i) a.index.toNat = Memory.read s.rb a.index.toNat := by
  rw [State.ringAt, hs]
  exact Memory.read_afterActs_ne _ fun b hb => BitVec.toNat_ne_iff_ne.mpr
    (hearlier b (mem_of_mem_takeWhile_append (decide_eq_false (Nat.not_le.mpr hi)) hb))

/-- A request that answers has had every act of the engine during it land, and has not written the ring buffer itself. -/
theorem step_request_rb {s t : State} {port : Port} {r : Request} {acts : List Landing} {rest : List Input}
    (hin : s.inputs = .request port r acts :: rest) (h : step s = .next t) : t.rb = Memory.afterActs s.rb acts := by
  obtain ⟨-, u, hu, rfl⟩ := runDuring_eq_next ((step_of_inputs_cons hin).symm.trans h)
  obtain ⟨_, hc⟩ := runRequest_completesOn port r { s with inputs := rest, landing := acts }
  obtain ⟨hrb, hland, -⟩ := CompletesOn.frame (hu ▸ hc)
  simp only [hrb, hland]

/-- Settles O51: what a logical byte reads is the ring buffer after the acts that have landed by its read, and every act has
landed at the end. -/
theorem engineWritesBetweenTwoReadsAreSeen : Obligations.EngineWritesBetweenTwoReadsAreSeen := by
  refine ⟨fun s earlier later before index value i hs hearlier hlater hmap => ⟨fun hi v hv => ?_,
    fun hi hnone v hv => ?_⟩, fun s t port r earlier later before index value rest hin hlater h => ?_⟩
  · have hread := State.read_ringAt_of_landed hs hearlier hlater hi
    exact State.logicalByte_of_read (by rw [hmap]; exact hread.trans hv)
  · have hread := State.read_ringAt_of_not_landed hs hnone hi
    exact State.logicalByte_of_read (by rw [hmap]; exact hread.trans hv)
  · rw [step_request_rb hin h]
    exact Memory.read_afterActs_last s.rb earlier later ⟨before, index, value⟩ hlater

/-! ### When a step stops -/

/-- An act of the engine at a byte the ring buffer does not have stops the step (20_memory.md R53, log 10). -/
theorem Input.effect_fault {input : Input} {s : State} {index : BitVec 16} (hmem : index ∈ input.engineIndices)
    (h : s.par.rbCap ≤ index.toNat) : input.effect s = .fault .noSuchRingByte := by
  cases input with
  | request port r acts =>
    obtain ⟨a, ha, rfl⟩ := List.mem_map.mp hmem
    exact runDuring_fault ha h
  | ringWrite k value =>
    cases List.mem_singleton.mp hmem
    exact engineWrites_outside h
  | ringInvalid k =>
    cases List.mem_singleton.mp hmem
    exact engineInvalidates_outside h
  | hostWrite | hostInvalid | reset => exact absurd hmem List.not_mem_nil

/-- Every input by which the engine acts only inside the ring buffer has a next state. -/
theorem Input.effect_next {input : Input} {s : State} (h : ∀ index ∈ input.engineIndices, index.toNat < s.par.rbCap) :
    ∃ t, input.effect s = .next t := by
  cases input with
  | request port r acts =>
    obtain ⟨_, hc⟩ := runRequest_completesOn port r { s with landing := acts }
    obtain ⟨u, hu⟩ := hc.exists_next
    exact ⟨_, runDuring_eq (fun a ha => h _ (List.mem_map_of_mem ha)) hu⟩
  | ringWrite index value => exact ⟨_, engineWrites_inside (h index List.mem_cons_self)⟩
  | ringInvalid index => exact ⟨_, engineInvalidates_inside (h index List.mem_cons_self)⟩
  | hostWrite addr value => exact ⟨_, rfl⟩
  | hostInvalid addr => exact ⟨_, rfl⟩
  | reset => exact ⟨_, rfl⟩

/-- Settles O19: a step is the effect of its nearest input. -/
theorem onlyAMissingRingByteFaults : Obligations.OnlyAMissingRingByteFaults := by
  intro s input rest hin
  rw [step_of_inputs_cons hin]
  exact ⟨fun ⟨_, hmem, h⟩ => Input.effect_fault hmem h,
    fun h => Input.effect_next (s := { s with inputs := rest }) h⟩

end Sys2Proof.Machine
end

section
/-! SUPPORT. The request word (30_encoding.md Part B): decoding undoes encoding, encoding undoes decoding up to the operand bits
an opcode does not use, and those bits reach nothing. -/

namespace Sys2Proof

open Machine

/-! ### The immediate field in each format -/

/-- A word whose upper `k` bits are 0 is its lower `m` bits, extended by zeros. -/
theorem and_upperMask_eq_zero_iff {k m : Nat} (x : BitVec (k + m)) :
    x &&& (BitVec.allOnes k ++ 0#m) = 0 ↔ 0#k ++ x.extractLsb' 0 m = x := by
  obtain ⟨hi, lo, rfl⟩ : ∃ (hi : BitVec k) (lo : BitVec m), hi ++ lo = x :=
    ⟨_, _, BitVec.extractLsb'_append_extractLsb'⟩
  have upper {a b : BitVec k} {c d : BitVec m} (h : a ++ c = b ++ d) : a = b := by
    simpa only [BitVec.extractLsb'_append_eq_left] using congrArg (BitVec.extractLsb' m k) h
  rw [BitVec.and_append, BitVec.and_allOnes, BitVec.and_zero, BitVec.extractLsb'_append_eq_right]
  constructor
  · intro h
    rw [upper (h.trans BitVec.zero_append_zero.symm)]
  · intro h
    rw [← upper h]
    exact BitVec.zero_append_zero

/-- The immediate field put together again from the subfields of its format, with zeros everywhere else (30_encoding.md R104). -/
def Format.rebuild : Format → BitVec 10 → BitVec 10
  | .z, _ => 0
  | .n, imm => 0#4 ++ imm.extractLsb' 0 6
  | .ci, imm => 0#3 ++ (imm.extractLsb' 4 3 ++ imm.extractLsb' 0 4)
  | .h, imm => 0#3 ++ imm.extractLsb' 0 7
  | .i, imm => 0#6 ++ imm.extractLsb' 0 4
  | .u10, imm => imm

/-- The must-be-zero bits of a format are the ones its subfields do not cover (30_encoding.md R104). -/
theorem Format.and_zeroMask_iff {f : Format} {imm : BitVec 10} : imm &&& f.zeroMask = 0 ↔ f.rebuild imm = imm := by
  cases f with
  | z =>
    rw [show Format.z.zeroMask = BitVec.allOnes 10 from rfl, BitVec.and_allOnes]
    exact eq_comm
  | n => exact and_upperMask_eq_zero_iff (k := 4) (m := 6) imm
  | ci =>
    have hjoin : imm.extractLsb' 4 3 ++ imm.extractLsb' 0 4 = imm.extractLsb' 0 7 :=
      BitVec.extractLsb'_append_extractLsb'_eq_extractLsb' rfl
    rw [Format.rebuild, hjoin]
    exact and_upperMask_eq_zero_iff (k := 3) (m := 7) imm
  | h => exact and_upperMask_eq_zero_iff (k := 3) (m := 7) imm
  | i => exact and_upperMask_eq_zero_iff (k := 6) (m := 4) imm
  | u10 => exact iff_of_true BitVec.and_zero rfl

/-! ### Encoding, then decoding -/

/-- `OP[5]` names the unit of every operation (30_encoding.md R96). -/
@[simp] theorem portOfOp_opcode (i : Instr) : portOfOp i.opcode = i.port := by
  cases i <;> simp [Instr.opcode, Instr.port, portOfOp]

/-- The IMM10 format of each operation (30_encoding.md R97). -/
def Instr.format : Instr → Format
  | .pAddN _ _ => .n
  | .pBeginQ _ _ => .ci
  | .pHBeginQ _ => .h
  | .pMkQCtrl _ _ | .pMkQInfo _ | .pMkQWrite _ _ _ | .pMkQRead _ _ | .pMkQFlash _ _ _ => .i
  | .pAddBlk _ _ | .pRdBuf _ | .uGetBlk _ _ | .uChkCrc _ => .u10
  | _ => .z

theorem extractLsb'_size (n : BitVec 6) : BitVec.extractLsb' (n := 10) 0 6 (0#4 ++ n) = n :=
  BitVec.extractLsb'_append_eq_right

theorem extractLsb'_hostCmd (cmd : BitVec 7) : BitVec.extractLsb' (n := 10) 0 7 (0#3 ++ cmd) = cmd :=
  BitVec.extractLsb'_append_eq_right

theorem extractLsb'_id (id : BitVec 4) : BitVec.extractLsb' (n := 10) 0 4 (0#6 ++ id) = id :=
  BitVec.extractLsb'_append_eq_right

theorem extractLsb'_pBeginQ_cmd (cmd : BitVec 3) (id : BitVec 4) :
    (Instr.pBeginQ cmd id).imm.extractLsb' 4 3 = cmd :=
  (BitVec.extractLsb'_append_eq_of_add_le (by decide)).trans BitVec.extractLsb'_append_eq_left

theorem extractLsb'_pBeginQ_id (cmd : BitVec 3) (id : BitVec 4) :
    (Instr.pBeginQ cmd id).imm.extractLsb' 0 4 = id :=
  (BitVec.extractLsb'_append_eq_of_add_le (by decide)).trans BitVec.extractLsb'_append_eq_right

theorem extractLsb'_lowerHalf (hi lo : BitVec 16) : BitVec.extractLsb' (n := 32) 0 16 (hi ++ lo) = lo :=
  BitVec.extractLsb'_append_eq_right

theorem extractLsb'_upperHalf (hi lo : BitVec 16) : BitVec.extractLsb' (n := 32) 16 16 (hi ++ lo) = hi :=
  BitVec.extractLsb'_append_eq_left

/-- An operand slice stands at bit 0 of its operand (30_encoding.md R97). -/
theorem extractLsb'_setWidth_self {w v : Nat} (x : BitVec w) (h : w ≤ v) : (x.setWidth v).extractLsb' 0 w = x := by
  rw [BitVec.extractLsb'_setWidth_of_le (by omega), BitVec.extractLsb'_eq_self]

/-- The immediate field of an operation sets no must-be-zero bit of its format (30_encoding.md R104). -/
theorem Instr.imm_and_zeroMask (i : Instr) : i.imm &&& i.format.zeroMask = 0 := by
  refine Format.and_zeroMask_iff.mpr ?_
  cases i with
  | pBeginQ cmd id =>
    simp only [Instr.format, Format.rebuild, extractLsb'_pBeginQ_cmd, extractLsb'_pBeginQ_id]
    rfl
  | _ => simp [Instr.imm, Instr.format, Format.rebuild, extractLsb'_size, extractLsb'_hostCmd, extractLsb'_id]

/-- The row of an operation's opcode reads the operation back out of its own request, to be accepted in the operation's format
(30_encoding.md R97). A count is read back because it fits its subfield. -/
theorem decode_encode_eq_accept {i : Instr} (h : i.wellFormed = true) :
    decode i.port (encode i) = accept i.format i.imm i := by
  simp only [decode, encode, opOf_append, immOf_append, portOfOp_opcode, if_true]
  cases i with
  | pAddN n _ | pAddBlk n _ | pRdBuf n | uGetBlk n _ | uChkCrc n =>
    have hn := of_decide_eq_true h
    simp [Instr.port, Instr.opcode, Instr.format, Instr.imm, Instr.opa, decodePacker, decodeUnpacker,
      extractLsb'_size, Nat.mod_eq_of_lt hn]
  | pBeginQ cmd id =>
    simp [Instr.port, Instr.opcode, Instr.format, decodePacker, extractLsb'_pBeginQ_cmd, extractLsb'_pBeginQ_id]
  | _ =>
    simp [Instr.port, Instr.opcode, Instr.format, Instr.imm, Instr.opa, Instr.opb, decodePacker, decodeUnpacker,
      extractLsb'_hostCmd, extractLsb'_id, extractLsb'_lowerHalf, extractLsb'_upperHalf, extractLsb'_setWidth_self]

/-- Settles O1: the row reads the operation back, and accepts its immediate field. -/
theorem decodeInvertsEncode : Obligations.DecodeInvertsEncode :=
  fun i h => (decode_encode_eq_accept h).trans (accept_eq_ok.mpr ⟨i.imm_and_zeroMask, rfl⟩)

/-! ### Decoding, then encoding -/

/-- The lower bits of an operand, extended by zeros, are the operand under a mask of as many ones. -/
theorem setWidth_extractLsb'_eq_and {w : Nat} (x : BitVec w) (n : Nat) :
    (x.extractLsb' 0 n).setWidth w = x &&& (BitVec.allOnes n).setWidth w := by
  ext j hj
  simp [hj, BitVec.getLsbD_eq_getElem, Bool.and_comm]

theorem setWidth_lowByte (x : Word32) : (x.extractLsb' 0 8).setWidth 32 = x &&& 0xFF#32 :=
  setWidth_extractLsb'_eq_and x 8

theorem setWidth_lowHalf (x : Word32) : (x.extractLsb' 0 16).setWidth 32 = x &&& 0xFFFF#32 :=
  setWidth_extractLsb'_eq_and x 16

theorem append_halves (x : Word32) : x.extractLsb' 16 16 ++ x.extractLsb' 0 16 = x :=
  BitVec.extractLsb'_append_extractLsb' (w := 16) (len := 16)

theorem and_wholeWord (x : Word32) : x &&& 0xFFFFFFFF#32 = x := BitVec.and_allOnes

/-- What a row of the opcode map reads from the fields of a request: an operation of that opcode, within its ranges, whose
immediate field is the one presented and whose operands are the used bits of those presented (30_encoding.md R97, R99). -/
structure Instr.ReadFrom (i : Instr) (op : BitVec 6) (imm : BitVec 10) (opa opb : Word32) : Prop where
  opcode : i.opcode = op
  wellFormed : i.wellFormed = true
  imm : i.imm = imm
  opa : i.opa = opa &&& usedOpa op
  opb : i.opb = opb &&& usedOpb op

theorem eq_ofNat_of_toNat_eq {op : BitVec 6} {c : Nat} (h : op.toNat = c) : op = BitVec.ofNat 6 c := by
  rw [← h, BitVec.ofNat_toNat, BitVec.setWidth_eq]

/-- Row by row: the opcode is the row's, the format's check leaves the immediate field its subfields alone, and each operand
slice is the operand under the mask of its used bits. -/
theorem decode_readFrom {port : Port} {r : Request} {i : Instr} (h : decode port r = .ok i) :
    i.ReadFrom (opOf r.cw) (immOf r.cw) r.opa r.opb := by
  obtain ⟨-, ⟨-, hrow⟩ | ⟨-, hrow⟩⟩ := decode_eq_ok h
  case' inl =>
    unfold decodePacker at hrow
    split at hrow
    case h_24 => cases hrow
  case' inr =>
    unfold decodeUnpacker at hrow
    split at hrow
    case h_12 => cases hrow
  all_goals
    rename_i hop
    obtain ⟨hfit, rfl⟩ := accept_eq_ok.mp hrow
    rw [eq_ofNat_of_toNat_eq hop]
    refine ⟨rfl, ?_, .trans ?_ (Format.and_zeroMask_iff.mp hfit), ?_, ?_⟩
    · simp [Instr.wellFormed] <;> omega
    · simp only [Instr.imm, Format.rebuild, BitVec.ofNat_toNat, BitVec.setWidth_eq]
    · simp [Instr.opa, usedOpa, setWidth_lowByte, setWidth_lowHalf, append_halves, and_wholeWord]
    · simp [Instr.opb, usedOpb, setWidth_lowHalf, and_wholeWord]

/-- Settles O2: the fields of what a row reads, put together again. -/
theorem decodedRequestReencodes : Obligations.DecodedRequestReencodes := by
  intro port r i h
  obtain ⟨hport, -⟩ := decode_eq_ok h
  obtain ⟨hop, hwf, himm, hopa, hopb⟩ := decode_readFrom h
  refine ⟨?_, hwf, ?_⟩
  · rw [← portOfOp_opcode, hop, hport]
  · rw [encode, hop, himm, hopa, hopb, append_opOf_immOf]

/-! ### Operand bits that are not used -/

/-- The format's check, alone, decides whether a row accepts. -/
theorem accept_isOk (f : Format) (imm : BitVec 10) (i : Instr) :
    (accept f imm i).isOk = decide (imm &&& f.zeroMask = 0) := by
  unfold accept
  split
  · exact (decide_eq_true ‹_›).symm
  · exact (decide_eq_false ‹_›).symm

/-- The command word, alone, decides whether a request decodes (30_encoding.md R98). -/
theorem decode_isOk_of_cw_eq (port : Port) {r r' : Request} (h : r'.cw = r.cw) :
    (decode port r').isOk = (decode port r).isOk := by
  unfold decode
  rw [h]
  split
  · cases port with
    | packer =>
      dsimp only
      unfold decodePacker
      split <;> simp only [accept_isOk]
    | unpacker =>
      dsimp only
      unfold decodeUnpacker
      split <;> simp only [accept_isOk]
  · rfl

/-- Operations of one port with the same request are the same operation. -/
theorem eq_of_encode_eq {i j : Instr} (hi : i.wellFormed = true) (hj : j.wellFormed = true) (hport : i.port = j.port)
    (h : encode i = encode j) : i = j := by
  have hdecode := decodeInvertsEncode i hi
  rw [hport, h, decodeInvertsEncode j hj] at hdecode
  exact (Except.ok.inj hdecode).symm

/-- Two requests that agree on the command word and on the operand bits its opcode uses are the same to the block: either both
decode, to operations with the same encoding, or neither does (30_encoding.md R99). -/
theorem runRequest_congr (port : Port) {r r' : Request} (hcw : r'.cw = r.cw)
    (hopa : r'.opa &&& usedOpa (opOf r.cw) = r.opa &&& usedOpa (opOf r.cw))
    (hopb : r'.opb &&& usedOpb (opOf r.cw) = r.opb &&& usedOpb (opOf r.cw)) :
    runRequest port r' = runRequest port r := by
  have hboth := decode_isOk_of_cw_eq port hcw
  funext s
  unfold runRequest
  cases hr : decode port r with
  | ok i =>
    cases hr' : decode port r' with
    | ok j =>
      obtain ⟨hport, hwf, henc⟩ := decodedRequestReencodes port r i hr
      obtain ⟨hport', hwf', henc'⟩ := decodedRequestReencodes port r' j hr'
      rw [hcw, hopa, hopb, ← henc] at henc'
      rw [eq_of_encode_eq hwf' hwf (hport'.trans hport.symm) henc']
    | error e => rw [hr, hr'] at hboth; cases hboth
  | error e =>
    cases hr' : decode port r' with
    | ok j => rw [hr, hr'] at hboth; cases hboth
    | error e' => rfl

/-- Settles O3: a step with a request pending is a function of what the block makes of the request. -/
theorem unusedOperandBitsReachNothing : Obligations.UnusedOperandBitsReachNothing := by
  intro s port r r' acts rest hcw hopa hopb
  rw [step_of_inputs_cons rfl, step_of_inputs_cons rfl]
  simp only [Input.effect, runRequest_congr port hcw hopa hopb]

/-! ### The spec's own words -/

/-- Settles O5: eight fixed words, decoded. -/
theorem specWordsDecodeToTheirOperations : Obligations.SpecWordsDecodeToTheirOperations := by
  unfold Obligations.SpecWordsDecodeToTheirOperations
  decide

end Sys2Proof
end

section
/-! SUPPORT. The Packer's field operations (41_packer_fields.md): the adds with room and without, one add as another, and P.ADDBLK as
one field of the host memory's bytes. -/

namespace Sys2Proof.Machine

/-! ### The adds -/

/-- An operation that is the shared add of its field completes when there is room. -/
theorem adds_of_addField {w : Nat} {i : Instr} {s : State} {v : BitVec w} {n : Nat} (hs : s.Legal)
    (hi : exec i s = s.finishPacker (s.packer.addField s.par.packCap v n))
    (hroom : bytesFor (s.packer.pos + n) ≤ s.par.packCap) : Adds i s v n := by
  obtain ⟨-, hfield, -, -⟩ := Packer.depositField_spec v s.par.packCap_legal.2 n hs.1 hroom
  exact ⟨_, hi.trans (State.finishPacker_addField v hroom), hfield, rfl⟩

/-- Settles O20: P.ADDN with a legal width is the shared add. -/
theorem addNAppendsTheLowBits : Obligations.AddNAppendsTheLowBits :=
  fun s _ v hs hlo hhi hroom => adds_of_addField hs (execPAddN_legal v s hlo hhi) hroom

/-- Settles O21: the fixed-width adds are the shared add by definition. -/
theorem fixedWidthAddsAppendTheirFields : Obligations.FixedWidthAddsAppendTheirFields :=
  fun _ hs => ⟨fun hroom _ => adds_of_addField hs rfl hroom, fun hroom _ => adds_of_addField hs rfl hroom,
    fun hroom _ => ⟨adds_of_addField hs rfl hroom, adds_of_addField hs rfl hroom⟩⟩

/-- A field of `n` bits is the same whether its value was cut to `n` bits before or not (30_encoding.md R73). -/
theorem Packer.addField_setWidth {w : Nat} (pk : Packer) (cap : Nat) (v : BitVec w) (n : Nat) :
    pk.addField cap (v.setWidth n) n = pk.addField cap v n := by
  have hbits : ∀ j < n, (v.setWidth n).getLsbD j = v.getLsbD j := fun j hj => by simp [hj]
  simp only [Packer.addField, Packer.depositField_congr n pk hbits]

/-- The shared add of a value cut to `n` bits is P.ADDN of the value. -/
theorem State.finishPacker_addField_setWidth {n : Nat} (v : BitVec 32) (s : State) (hlo : 1 ≤ n) (hhi : n ≤ 32) :
    s.finishPacker (s.packer.addField s.par.packCap (v.setWidth n) n) = execPAddN n v s := by
  rw [Packer.addField_setWidth, execPAddN_legal v s hlo hhi]

/-- Settles O22: each of the four is the shared add at a width P.ADDN accepts. -/
theorem fixedWidthAddsAreAddN : Obligations.FixedWidthAddsAreAddN :=
  fun s opa => ⟨State.finishPacker_addField_setWidth (n := 8) opa s (by decide) (by decide),
    State.finishPacker_addField_setWidth (n := 16) opa s (by decide) (by decide),
    (execPAddN_legal opa s (by decide) (by decide)).symm, rfl⟩

/-! ### P.ADDBLK -/

/-- P.ADDBLK with room for its whole block (41_packer_fields.md R118). -/
theorem execPAddBlk_room {s : State} {size : Nat} (addr : BitVec 32)
    (h : bytesFor (s.packer.pos + 8 * size) ≤ s.par.packCap) :
    execPAddBlk size addr s = .next { s with
      packer := { s.packer.depositBytes (s.hostBlock addr size) with
        hostReads := (s.packer.depositBytes (s.hostBlock addr size)).hostReads + 1 }
      pResp := some ⟨.ok, 0⟩ } := by
  unfold execPAddBlk
  rw [if_pos (Packer.hasRoom_iff.mpr h)]; rfl

/-- P.ADDBLK without room for its whole block reads no host byte and writes none (41_packer_fields.md R118). -/
theorem execPAddBlk_overflow {s : State} {size : Nat} (addr : BitVec 32)
    (h : s.par.packCap < bytesFor (s.packer.pos + 8 * size)) :
    execPAddBlk size addr s = .next (s.answer .packer .overflow 0) := by
  unfold execPAddBlk
  rw [if_neg (by rw [Packer.hasRoom_iff]; omega)]; rfl

/-- Settles O23: the width check comes first, then the room check of each add. -/
theorem addsCheckWidthThenRoom : Obligations.AddsCheckWidthThenRoom := by
  refine fun s => ⟨fun n v => ⟨execPAddN_illegal v s, fun hlo hhi hfull => ?_⟩,
    fun hfull v => State.finishPacker_addField_overflow v hfull,
    fun hfull v => State.finishPacker_addField_overflow v hfull,
    fun hfull v => ⟨State.finishPacker_addField_overflow v hfull, State.finishPacker_addField_overflow v hfull⟩,
    fun size addr hfull => execPAddBlk_overflow addr hfull⟩
  exact (execPAddN_legal v s hlo hhi).trans (State.finishPacker_addField_overflow v hfull)

/-- A block of the host memory is one field, of its bytes in increasing address order (41_packer_fields.md R118). -/
theorem State.depositBytes_hostBlock (s : State) (addr : Word32) (size : Nat) :
    ∃ v : BitVec (8 * size),
      (∀ pk : Packer, pk.depositBytes (s.hostBlock addr size) = pk.depositField v (8 * size)) ∧
      ∀ i < size, ∀ j < 8, v.getLsbD (8 * size - 1 - (8 * i + j)) = (s.hostByte addr i).getLsbD (7 - j) := by
  have hlen := s.hostBlock_length addr size
  have hget := s.hostBlock_getElem addr size
  generalize s.hostBlock addr size = bytes at hlen hget ⊢
  subst hlen
  obtain ⟨v, hv, hbits⟩ := Packer.depositBytes_eq bytes
  exact ⟨v, hv, fun i hi j hj => by rw [hbits i hi j hj, hget i hi]⟩

/-- The model's own count of host reads is no part of a field (log 14). -/
theorem Packer.FieldAdded.countHostRead {w n : Nat} {old new : Packer} {v : BitVec w} (h : old.FieldAdded new v n)
    (reads : Nat) : old.FieldAdded { new with hostReads := reads } v n :=
  ⟨h.cur, h.off, h.bits, h.earlier, h.pad, h.framing, h.keeps, h.outside⟩

/-- What P.ADDBLK with room appends, as one field (41_packer_fields.md R113, R118). -/
theorem execPAddBlk_adds {s : State} {size : Nat} (addr : BitVec 32) (hs : s.Legal)
    (hroom : bytesFor (s.packer.pos + 8 * size) ≤ s.par.packCap) :
    ∃ v : BitVec (8 * size),
      (∀ i < size, ∀ j < 8, v.getLsbD (8 * size - 1 - (8 * i + j)) = (s.hostByte addr i).getLsbD (7 - j)) ∧
      Adds (.pAddBlk size addr) s v (8 * size) := by
  obtain ⟨v, hv, hbits⟩ := s.depositBytes_hostBlock addr size
  obtain ⟨-, hfield, -, -⟩ := Packer.depositField_spec v s.par.packCap_legal.2 _ hs.1 hroom
  rw [← hv] at hfield
  exact ⟨v, hbits, _, execPAddBlk_room addr hroom, hfield.countHostRead _, rfl⟩

/-- Settles O24: the one content of an address nothing has written is `Config.hostAtStart` (log 7). -/
theorem addBlockAppendsTheHostBytes : Obligations.AddBlockAppendsTheHostBytes := by
  refine ⟨Config.hostAtStart, fun s size addr hs hroom => ?_⟩
  obtain ⟨v, hbits, hadds⟩ := execPAddBlk_adds addr hs hroom
  refine ⟨s.hostByte addr, v, ?_, hbits, hadds⟩
  rintro i - a rfl hquiet
  exact State.hostByte_quiet hquiet

end Sys2Proof.Machine
end

section
/-! SUPPORT. The framing of the filled bytes (30_encoding.md R71): the primitives of the Packer keep it, so a sequence of them does, and
so does every operation that writes no raw byte. -/

namespace Sys2Proof.Machine

/-! ### The Packer's primitives -/

/-- The Packer a Packer operation ends in, if it does not fail, is legal and its filled bytes are framed. -/
def FramedResult (cap : Nat) (r : Except Status Packer) : Prop := ∀ pk, r = .ok pk → pk.Legal cap ∧ pk.Framed

theorem FramedResult.ok {cap : Nat} {pk : Packer} (hl : pk.Legal cap) (hf : pk.Framed) : FramedResult cap (.ok pk) :=
  fun _ e => Except.ok.inj e ▸ ⟨hl, hf⟩

theorem FramedResult.error (cap : Nat) (st : Status) : FramedResult cap (.error st) := fun _ e => nomatch e

/-- A sequence of primitives keeps the framing when each does from a legal Packer (43_packer_composite.md R159). -/
theorem FramedResult.bind {cap : Nat} {r : Except Status Packer} {f : Packer → Except Status Packer}
    (hr : FramedResult cap r) (hf : ∀ pk, pk.Legal cap → pk.Framed → FramedResult cap (f pk)) :
    FramedResult cap (r >>= f) := by
  cases r with
  | ok pk =>
    obtain ⟨hl, hframed⟩ := hr pk rfl
    exact hf pk hl hframed
  | error st => exact FramedResult.error cap st

/-- A byte of two Packers that hold the same there, since the same reset. -/
theorem Packer.byte_congr {pk pk' : Packer} {k : Nat} (hread : Memory.read pk'.pbuf k = Memory.read pk.pbuf k)
    (hresets : pk'.resets = pk.resets) : pk'.byte k = pk.byte k := by
  simp only [Packer.byte, hread, hresets]

/-- The checksum byte has the framing bit of its index (30_encoding.md R81). -/
theorem framingByte_or_bit7 (k : Nat) (c : Bits7) :
    (framingByte k ||| c.setWidth 8).getLsbD 7 = decide (k ≠ 0) := by
  have hc : (c.setWidth 8).getLsbD 7 = false := by simp
  rw [BitVec.getLsbD_or, framingByte_bit7, hc, Bool.or_false]

section

variable {p : Config.Params} {pk : Packer}

/-- Deposits give each byte they are the first to touch its framing bit (41_packer_fields.md R119). -/
theorem Packer.Framed.depositField {w n : Nat} (hf : pk.Framed) (hl : pk.Legal p.packCap) (v : BitVec w)
    (hroom : bytesFor (pk.pos + n) ≤ p.packCap) :
    (pk.depositField v n).Legal p.packCap ∧ (pk.depositField v n).Framed := by
  obtain ⟨hl', hfield, -, -⟩ := Packer.depositField_spec v p.packCap_legal.2 n hl hroom
  exact ⟨hl', hfield.framed hl.2.1 hl'.2.1 hf⟩

theorem Packer.Framed.addField {w : Nat} (hf : pk.Framed) (hl : pk.Legal p.packCap) (v : BitVec w) (n : Nat) :
    FramedResult p.packCap (pk.addField p.packCap v n) := by
  rcases Packer.addField_cases pk p.packCap v n with ⟨hroom, e⟩ | ⟨_, e⟩ <;> rw [e]
  · obtain ⟨hl', hf'⟩ := hf.depositField hl v hroom
    exact .ok hl' hf'
  · exact .error _ _

theorem Packer.Framed.endFrame (hf : pk.Framed) (hl : pk.Legal p.packCap) :
    FramedResult p.packCap (pk.endFrame p.packCap) := by
  rcases Nat.lt_or_ge p.packCap (pk.length + 1) with hfull | hroom
  · rw [Packer.endFrame_overflow hfull]; exact .error _ _
  · obtain ⟨pk', e, hl', hcur, hoff, hread, hresets, -⟩ := Packer.endFrame_spec hl p.packCap_legal.2 hroom
    rw [e]
    refine .ok hl' fun k hk => ?_
    have hk' : k < pk.length + 1 := by simpa only [Packer.length, hcur, hoff, if_true] using hk
    have hreadk := hread k
    by_cases hlast : k = pk.length
    · rw [if_pos hlast] at hreadk
      rw [Packer.byte_of_read hreadk, framingByte_or_bit7, hlast]
    · rw [if_neg hlast] at hreadk
      rw [Packer.byte_congr hreadk hresets]
      exact hf k (by omega)

/-- A query header is a field of a rewound Packer, so what PBUF held before does not matter (42_packer_framing.md R130). -/
theorem Packer.beginHeader_framed (hl : pk.Legal p.packCap) (hdr : Bits7) : (pk.beginHeader hdr).Framed := by
  obtain ⟨hlo, _⟩ := p.packCap_legal
  exact (pk.rewind_framed.depositField hl.rewind hdr
    (by simp only [bytesFor, Packer.rewind_pos]; omega)).2

end

/-! ### How an operation completes -/

/-- The filled bytes of the state this outcome leaves are framed. -/
def LeavesFramed (o : Host.Outcome State Fault Refusal) : Prop := ∀ t, o = .next t → t.packer.Framed

/-- A state with this Packer. -/
theorem LeavesFramed.next {t : State} (h : t.packer.Framed) : LeavesFramed (.next t) :=
  fun _ e => Host.Outcome.next.inj e ▸ h

section

variable {s : State}

/-- A response on its own writes no byte of PBUF. -/
theorem State.answer_leavesFramed (hf : s.packer.Framed) (port : Port) (st : Status) (d : Word32) :
    LeavesFramed (.next (s.answer port st d)) :=
  .next (by rw [State.answer_packer]; exact hf)

theorem State.finishPacker_leavesFramed {cap : Nat} {r : Except Status Packer} (hf : s.packer.Framed)
    (hr : FramedResult cap r) : LeavesFramed (s.finishPacker r) := by
  cases r with
  | ok pk => exact .next (hr pk rfl).2
  | error st => exact State.answer_leavesFramed hf .packer st 0

theorem execPAddN_leavesFramed (n : Nat) (v : BitVec 32) (hl : s.packer.Legal s.par.packCap) (hf : s.packer.Framed) :
    LeavesFramed (execPAddN n v s) := by
  unfold execPAddN
  split
  · exact State.finishPacker_leavesFramed hf (hf.addField hl v n)
  · exact State.answer_leavesFramed hf .packer .width 0

theorem execPAddBlk_leavesFramed (size : Nat) (addr : BitVec 32) (hl : s.packer.Legal s.par.packCap)
    (hf : s.packer.Framed) : LeavesFramed (execPAddBlk size addr s) := by
  rcases Nat.lt_or_ge s.par.packCap (bytesFor (s.packer.pos + 8 * size)) with hfull | hroom
  · rw [execPAddBlk_overflow addr hfull]
    exact State.answer_leavesFramed hf .packer .overflow 0
  · obtain ⟨v, hv, -⟩ := s.depositBytes_hostBlock addr size
    rw [execPAddBlk_room addr hroom, hv]
    exact .next (hf.depositField hl v hroom).2

theorem execPRdBuf_leavesFramed (index : Nat) (hf : s.packer.Framed) : LeavesFramed (execPRdBuf index s) := by
  unfold execPRdBuf
  split
  · exact State.answer_leavesFramed hf .packer .range 0
  · exact State.answer_leavesFramed hf .packer .ok _

/-- An Unpacker operation leaves the whole Packer (20_memory.md R66). -/
theorem exec_unpacker_leavesFramed {i : Instr} (hp : i.port = .unpacker) (hf : s.packer.Framed) :
    LeavesFramed (exec i s) := by
  intro t h
  obtain ⟨-, -, -, -, -, -, hpacker⟩ := (CompletesOn.of_exec h).frame
  obtain ⟨hpk, -⟩ := hpacker hp
  rw [hpk]; exact hf

/-- Every operation of the Packer but P.HEND: the primitives of its rule, one after another (43_packer_composite.md R150 to R158). -/
theorem exec_packer_leavesFramed {i : Instr} (hp : i.port = .packer) (hl : s.packer.Legal s.par.packCap)
    (hf : s.packer.Framed) (hne : i ≠ .pHEnd) : LeavesFramed (exec i s) := by
  have header (hdr : Bits7) := Packer.beginHeader_framed hl hdr
  have rewound := s.packer.rewind_framed
  have finish {r : Except Status Packer} (hr : FramedResult s.par.packCap r) : LeavesFramed (s.finishPacker r) :=
    State.finishPacker_leavesFramed hf hr
  cases i with
  | pAddN n v => exact execPAddN_leavesFramed n v hl hf
  | pAdd8 v => exact finish (hf.addField hl v 8)
  | pAdd16 v => exact finish (hf.addField hl v 16)
  | pAdd32 v => exact finish (hf.addField hl v 32)
  | pAddF v => exact finish (hf.addField hl v 32)
  | pAddBlk size addr => exact execPAddBlk_leavesFramed size addr hl hf
  | pBeginQ cmd id => exact finish (.ok (hl.beginHeader _) (header _))
  | pBeginA => exact finish (.ok hl.rewind rewound)
  | pHBeginQ cmd => exact finish (.ok (hl.beginHeader _) (header _))
  | pHBeginA => exact finish (.ok hl.rewind rewound)
  | pEnd => exact finish (hf.endFrame hl)
  | pHEnd => exact absurd rfl hne
  | pLen => exact State.answer_leavesFramed hf .packer .ok _
  | pRdBuf index => exact execPRdBuf_leavesFramed index hf
  | pMkQCtrl id v =>
    exact finish (((header _).addField (hl.beginHeader _) v 16).bind fun _ l f => f.endFrame l)
  | pMkACtrl v w =>
    exact finish ((rewound.addField hl.rewind v 16).bind fun _ l f =>
      (f.addField l w 16).bind fun _ l f => f.endFrame l)
  | pMkQInfo id => exact finish ((header _).endFrame (hl.beginHeader _))
  | pMkAInfo v0 v1 v2 =>
    exact finish ((rewound.addField hl.rewind v0 16).bind fun _ l f =>
      (f.addField l v1 16).bind fun _ l f => (f.addField l v2 16).bind fun _ l f => f.endFrame l)
  | pMkQWrite id index v =>
    exact finish (((header _).addField (hl.beginHeader _) index 16).bind fun _ l f =>
      (f.addField l v 32).bind fun _ l f => f.endFrame l)
  | pMkAWrite v => exact finish ((rewound.addField hl.rewind v 32).bind fun _ l f => f.endFrame l)
  | pMkQRead id index =>
    exact finish (((header _).addField (hl.beginHeader _) index 16).bind fun _ l f => f.endFrame l)
  | pMkARead v => exact finish ((rewound.addField hl.rewind v 32).bind fun _ l f => f.endFrame l)
  | pMkQFlash id address word =>
    exact finish (((header _).addField (hl.beginHeader _) address 32).bind fun _ l f =>
      (f.addField l word 32).bind fun _ l f => f.endFrame l)
  | _ => cases hp

end

/-- Settles O14: an operation of the Packer by its primitives, an operation of the Unpacker by its frame. -/
theorem framingSurvivesEveryOperation : Obligations.FramingSurvivesEveryOperation := by
  rintro i s t ⟨hl, -⟩ hf hne h
  cases hp : i.port with
  | packer => exact exec_packer_leavesFramed hp hl hf hne t h
  | unpacker => exact exec_unpacker_leavesFramed hp hf t h

end Sys2Proof.Machine
end

section
/-! SUPPORT. The Packer's framing and readout (42_packer_framing.md): a field that fills exactly one byte, as a header and a
checksum do; the pad of a partly filled byte; the end operations; and the frame lengths a sequence of operations leaves. -/

namespace Sys2Proof.Machine

/-! ### A field of exactly one byte -/

/-- A seven-bit field added at a byte boundary is a whole byte: the framing bit of its index, then the field
(30_encoding.md R70, R72). -/
theorem Packer.FieldAdded.read_wholeByte {old new : Packer} {v : Bits7} {cap : Nat} (h : old.FieldAdded new v 7)
    (hoff : old.off = 0) (hl : new.Legal cap) (k : Nat) :
    Memory.read new.pbuf k = if k = old.cur.toNat then
      some ((if old.cur.toNat = 0 then 0#1 else 1#1) ++ v : BitVec (1 + 7)) else Memory.read old.pbuf k := by
  have hpos : old.pos = 7 * old.cur.toNat := by
    simp only [Packer.pos, (off_eq_zero_iff old.off).mp hoff, Nat.add_zero]
  have hend : bytesFor (old.pos + 7) = old.cur.toNat + 1 := by simp only [bytesFor]; omega
  split
  case isTrue hk =>
    subst hk
    have hlen : new.length = old.cur.toNat + 1 := by rw [Packer.length_eq _ hl.2.1, h.pos, hend]
    rw [Packer.read_eq hl (by omega)]
    refine congrArg some (Packer.byte_eq ?_ fun j hj => ?_)
    · rw [h.framing _ (by omega) (by omega)]
      split <;> simp [*]
    · rw [← hpos]; exact h.bits j hj
  case isFalse hk => exact h.outside k (by omega)

/-- At a byte boundary the filled length is the cursor (10_state.md R23). -/
theorem Packer.length_of_off_zero {pk : Packer} (hoff : pk.off = 0) : pk.length = pk.cur.toNat := by
  simp only [Packer.length, hoff, if_true, Nat.add_zero]

/-- A seven-bit field added at a byte boundary leaves the cursor at the next one. -/
theorem Packer.FieldAdded.cursor_wholeByte {old new : Packer} {v : Bits7} (h : old.FieldAdded new v 7)
    (hoff : old.off = 0) : new.cur.toNat = old.cur.toNat + 1 ∧ new.off = 0 := by
  have hoff' := (off_eq_zero_iff old.off).mp hoff
  have hcur := h.cur
  have hnew := h.off
  rw [off_eq_zero_iff]
  simp only [Packer.pos] at hcur hnew
  omega

/-! ### Begin operations -/

/-- Byte 0, the other bytes and the cursor after a begin-query operation (42_packer_framing.md R130, R132). -/
theorem Packer.beginHeader_bytes {p : Config.Params} {pk : Packer} (hl : pk.Legal p.packCap) (hdr : Bits7) :
    (pk.beginHeader hdr).cur = 1 ∧ (pk.beginHeader hdr).off = 0 ∧
    Memory.read (pk.beginHeader hdr).pbuf 0 = some (0#1 ++ hdr : BitVec (1 + 7)) ∧
    ∀ k, k ≠ 0 → Memory.read (pk.beginHeader hdr).pbuf k = Memory.read pk.pbuf k := by
  obtain ⟨_, _, _, hwf, _⟩ := hl
  obtain ⟨hlo, hhi⟩ := p.packCap_legal
  obtain ⟨hl', hfield, -, -⟩ := Packer.beginHeader_spec hdr hwf (by omega) hhi
  obtain ⟨hcur, hoff⟩ := hfield.cursor_wholeByte rfl
  have hread := hfield.read_wholeByte rfl hl'
  exact ⟨BitVec.eq_of_toNat_eq hcur, hoff, hread 0, fun k hk => (hread k).trans (if_neg hk)⟩

/-- Settles O25: both operations begin with a header of seven bits. -/
theorem beginQueryWritesTheHeader : Obligations.BeginQueryWritesTheHeader := by
  rintro s ⟨hl, -⟩
  refine ⟨fun cmd id => ?_, fun cmd => ?_⟩
  · obtain ⟨hcur, hoff, hheader, hother⟩ := Packer.beginHeader_bytes hl (deviceHeader cmd id)
    exact ⟨_, rfl, hcur, hoff, hheader, hother, rfl⟩
  · obtain ⟨hcur, hoff, hheader, hother⟩ := Packer.beginHeader_bytes hl cmd
    exact ⟨_, rfl, hcur, hoff, hheader, hother, rfl⟩

/-- Settles O26: both operations rewind the Packer, by definition. -/
theorem beginAnswerOnlyRewinds : Obligations.BeginAnswerOnlyRewinds := by
  rintro s i (rfl | rfl) <;>
    exact ⟨_, rfl, s.packer.rewind_cur, s.packer.rewind_off, s.packer.rewind_length, fun _ => rfl, rfl⟩

/-! ### End operations -/

/-- P.END with room (42_packer_framing.md R134): the cursor and every byte it leaves. -/
theorem execPEnd_room {s : State} (hs : s.Legal) (hroom : s.packer.length + 1 ≤ s.par.packCap) :
    ∃ pk, exec .pEnd s = .next { s with packer := pk, pResp := some ⟨.ok, 0⟩ } ∧
      pk.cur.toNat = s.packer.length + 1 ∧ pk.off = 0 ∧
      ∀ k, Memory.read pk.pbuf k = if k = s.packer.length then
        some ((if s.packer.length = 0 then 0#1 else 1#1) ++
          checksum (s.packer.prefixBytes s.packer.length) : BitVec (1 + 7))
        else Memory.read s.packer.pbuf k := by
  obtain ⟨pk, e, -, hcur, hoff, hread, -, -⟩ := Packer.endFrame_spec hs.1 s.par.packCap_legal.2 hroom
  rw [framingByte_or_setWidth] at hread
  exact ⟨pk, congrArg s.finishPacker e, hcur, hoff, hread⟩

/-- P.HEND with room (42_packer_framing.md R138): the cursor and every byte it leaves. -/
theorem execPHEnd_room {s : State} (hs : s.Legal) (hroom : s.packer.length + 3 ≤ s.par.packCap) :
    ∃ pk, exec .pHEnd s = .next { s with packer := pk, pResp := some ⟨.ok, 0⟩ } ∧
      pk.cur.toNat = s.packer.length + 3 ∧ pk.off = 0 ∧
      ∀ k, Memory.read pk.pbuf k =
        if k = s.packer.length + 2 then some 0x00 else if k = s.packer.length + 1 then some s.par.hostTerm
        else if k = s.packer.length then
          some ((if s.packer.length = 0 then 0#1 else 1#1) ++
            checksum (s.packer.prefixBytes s.packer.length) : BitVec (1 + 7))
        else Memory.read s.packer.pbuf k := by
  obtain ⟨pk, e, -, hcur, hoff, hread, -, -⟩ :=
    Packer.endHostFrame_spec s.par.hostTerm hs.1 s.par.packCap_legal.2 hroom
  rw [framingByte_or_setWidth] at hread
  exact ⟨pk, congrArg s.finishPacker e, hcur, hoff, hread⟩

/-- Settles O27: `execPEnd_room` at the byte it appends and at the others. -/
theorem endAppendsTheChecksumByte : Obligations.EndAppendsTheChecksumByte := by
  intro s hs hroom
  obtain ⟨pk, e, hcur, hoff, hread⟩ := execPEnd_room hs hroom
  exact ⟨_, e, hcur, hoff, (hread _).trans (if_pos rfl), fun k hk => (hread k).trans (if_neg hk), rfl⟩

/-- Settles O28: `execPHEnd_room` at the three bytes it appends and at the others. -/
theorem hostEndAppendsTheSuffix : Obligations.HostEndAppendsTheSuffix := by
  intro s hs hroom
  obtain ⟨pk, e, hcur, hoff, hread⟩ := execPHEnd_room hs hroom
  have hlen : pk.length = s.packer.length + 3 := (Packer.length_of_off_zero hoff).trans hcur
  refine ⟨_, e, hlen, hcur, hoff, (hread _).trans (by simp), (hread _).trans (by simp), (hread _).trans (if_pos rfl),
    fun k hk => (hread k).trans ?_, rfl⟩
  rw [if_neg (by omega), if_neg (by omega), if_neg (by omega)]

/-- Settles O29: without room either end operation fails before it writes. -/
theorem endOperationsCheckRoom : Obligations.EndOperationsCheckRoom := fun s =>
  ⟨fun hfull => congrArg s.finishPacker (Packer.endFrame_overflow hfull),
    fun hfull => congrArg s.finishPacker (Packer.endHostFrame_overflow s.par.hostTerm hfull)⟩

/-! ### P.END as deposits -/

/-- The pad bits of a byte bring the position to the end of the filled bytes (30_encoding.md R80). -/
theorem Packer.pos_add_pad {pk : Packer} (ho : pk.off.toNat ≤ 6) :
    pk.pos + (7 - pk.off.toNat) % 7 = 7 * pk.length := by
  simp only [Packer.length_eq _ ho, bytesFor, Packer.pos]
  omega

/-- The Packer after 0 bits up to the end of its partly filled byte, if it has one (42_packer_framing.md R134). -/
def Packer.padded (pk : Packer) : Packer := pk.depositField 0#7 ((7 - pk.off.toNat) % 7)

section

variable {pk : Packer} {cap : Nat}

/-- The pad is a field of 0 bits, for which the byte it ends in is room enough. -/
theorem Packer.padded_added (hl : pk.Legal cap) (hcap : cap ≤ 1024) (hroom : pk.length ≤ cap) :
    pk.padded.Legal cap ∧ pk.FieldAdded pk.padded 0#7 ((7 - pk.off.toNat) % 7) := by
  have hend : bytesFor (pk.pos + (7 - pk.off.toNat) % 7) ≤ cap := by
    rw [Packer.pos_add_pad hl.2.1]; simp only [bytesFor]; omega
  obtain ⟨hl', hfield, -, -⟩ := Packer.depositField_spec 0#7 hcap _ hl hend
  exact ⟨hl', hfield⟩

/-- Padding moves the cursor to the end of the filled bytes. -/
theorem Packer.padded_cursor (hl : pk.Legal cap) (hcap : cap ≤ 1024) (hroom : pk.length ≤ cap) :
    pk.padded.cur.toNat = pk.length ∧ pk.padded.off = 0 := by
  obtain ⟨-, hfield⟩ := Packer.padded_added hl hcap hroom
  have hcur := hfield.cur
  have hoff := hfield.off
  rw [Packer.pos_add_pad hl.2.1] at hcur hoff
  exact ⟨by omega, (off_eq_zero_iff _).mpr (by omega)⟩

/-- Padding changes no stream bit of the filled bytes: those not yet deposited are 0 already (30_encoding.md R80). -/
theorem Packer.padded_streamBit (hl : pk.Legal cap) (hcap : cap ≤ 1024) (hroom : pk.length ≤ cap) {k : Nat}
    (hk : k < 7 * pk.length) : pk.padded.streamBit k = pk.streamBit k := by
  have hpos := Packer.pos_add_pad hl.2.1
  have hlen := Packer.length_eq pk hl.2.1
  obtain ⟨-, hfield⟩ := Packer.padded_added hl hcap hroom
  rcases Nat.lt_or_ge k pk.pos with hwritten | hrest
  · exact hfield.earlier k hwritten
  · have hdeposited := hfield.bits (k - pk.pos) (by omega)
    rw [Nat.add_sub_cancel' hrest, BitVec.getLsbD_zero] at hdeposited
    exact hdeposited.trans (Packer.streamBit_pad hl hrest (by omega)).symm

/-- Padding changes no byte of PBUF. -/
theorem Packer.padded_read (hl : pk.Legal cap) (hcap : cap ≤ 1024) (hroom : pk.length ≤ cap) (k : Nat) :
    Memory.read pk.padded.pbuf k = Memory.read pk.pbuf k := by
  have hlen := Packer.length_eq pk hl.2.1
  simp only [bytesFor] at hlen
  obtain ⟨hl', hfield⟩ := Packer.padded_added hl hcap hroom
  obtain ⟨hcur, hoff⟩ := Packer.padded_cursor hl hcap hroom
  rcases Nat.lt_or_ge k pk.length with hk | hk
  · have hlen' : pk.padded.length = pk.length := (Packer.length_of_off_zero hoff).trans hcur
    rw [Packer.read_eq hl' (by omega), Packer.read_eq hl hk]
    refine congrArg some (byte_ext (hfield.keeps k (by omega)) fun j hj => ?_)
    rw [Packer.byte_data _ _ hj, Packer.byte_data _ _ hj]
    exact Packer.padded_streamBit hl hcap hroom (by omega)
  · refine hfield.outside k (.inr ?_)
    rw [Packer.pos_add_pad hl.2.1]; simp only [bytesFor]; omega

end

/-- Settles O30: the pad changes no byte, and the checksum then deposited is the whole byte P.END writes. -/
theorem endEqualsDepositingPadAndChecksum : Obligations.EndEqualsDepositingPadAndChecksum := by
  intro s t hs hroom h padded ended
  have hcap := s.par.packCap_legal.2
  obtain ⟨pk, e, hcur, hoff, hread⟩ := execPEnd_room hs hroom
  obtain rfl := Host.Outcome.next.inj (h.symm.trans e)
  have hfilled : s.packer.length ≤ s.par.packCap := by omega
  obtain ⟨hlpad, -⟩ := Packer.padded_added hs.1 hcap hfilled
  obtain ⟨hcurpad, hoffpad⟩ := Packer.padded_cursor hs.1 hcap hfilled
  have hpos : s.packer.padded.pos = 7 * s.packer.length := by rw [Packer.pos, hcurpad, hoffpad]; rfl
  obtain ⟨hlend, hfield, -, -⟩ := Packer.depositField_spec (checksum (s.packer.prefixBytes s.packer.length)) hcap 7 hlpad
    (by rw [hpos]; simp only [bytesFor]; omega)
  obtain ⟨hcurend, hoffend⟩ := hfield.cursor_wholeByte hoffpad
  have hreadend := hfield.read_wholeByte hoffpad hlend
  rw [hcurpad] at hcurend
  simp only [hcurpad, Packer.padded_read hs.1 hcap hfilled] at hreadend
  exact ⟨BitVec.eq_of_toNat_eq (hcur.trans hcurend.symm), hoff.trans hoffend.symm,
    fun k => (hread k).trans (hreadend k).symm⟩

/-! ### Readout -/

/-- Settles O31: the filled length fits RDATA. -/
theorem lenReturnsTheFilledLength : Obligations.LenReturnsTheFilledLength := by
  intro s
  refine ⟨_, rfl, ?_⟩
  have hcur := s.packer.cur.isLt
  simp only [Packer.length, off_eq_zero_iff, BitVec.toNat_ofNat]
  refine Nat.mod_eq_of_lt ?_
  split <;> omega

/-- P.RDBUF inside the filled bytes (42_packer_framing.md R142). -/
theorem execPRdBuf_inside {s : State} {index : Nat} (h : index < s.packer.length) :
    execPRdBuf index s = .next (s.answer .packer .ok ((s.packer.byte index).setWidth 32)) :=
  if_neg (Nat.not_le.mpr h)

/-- P.RDBUF outside the filled bytes (42_packer_framing.md R142). -/
theorem execPRdBuf_outside {s : State} {index : Nat} (h : s.packer.length ≤ index) :
    execPRdBuf index s = .next (s.answer .packer .range 0) :=
  if_pos h

/-- Settles O32: the filled bytes of a legal Packer have been written. -/
theorem readBufferExposesOnlyTheFilledPrefix : Obligations.ReadBufferExposesOnlyTheFilledPrefix := by
  rintro s index ⟨hl, -⟩
  exact ⟨fun h => ⟨_, Packer.read_eq hl h, execPRdBuf_inside h⟩, execPRdBuf_outside⟩

/-! ### Frame lengths -/

/-- From every state with these parameters whose Packer stands at stream position `q`, whatever PBUF holds, the operations are
all answered `OK` and leave a filled length of `len`. -/
def LengthFrom (p : Config.Params) (q : Nat) (ops : List Instr) (len : Nat) : Prop :=
  ∀ s : State, s.par = p → s.packer.off.toNat ≤ 6 → s.packer.pos = q → BuildsLength ops s len

/-- A first operation that completes on the Packer's port, before the rest. -/
theorem BuildsLength.cons {i : Instr} {ops : List Instr} {s : State} {pk : Packer} {len : Nat}
    (h : exec i s = .next { s with packer := pk, pResp := some ⟨.ok, 0⟩ }) (hp : i.port = .packer)
    (hrest : BuildsLength ops { s with packer := pk, pResp := some ⟨.ok, 0⟩ } len) : BuildsLength (i :: ops) s len := by
  obtain ⟨ds, t, hrun, hlen⟩ := hrest
  exact ⟨_, t, runAll_packer h hp hrun, hlen⟩

section

variable {p : Config.Params} {q len : Nat} {ops : List Instr}

/-- P.END alone adds the checksum byte; every PBUF has room for 12 bytes (00_scope.md R7). -/
theorem LengthFrom.pEnd (hlen : bytesFor q + 1 = len := by decide) (hroom : len ≤ 12 := by decide) :
    LengthFrom p q [.pEnd] len := by
  rintro s rfl ho rfl
  obtain ⟨hlo, hhi⟩ := s.par.packCap_legal
  rw [← Packer.length_eq _ ho] at hlen
  obtain ⟨pk, e, hpk, -⟩ := Packer.endFrame_ok hhi (show s.packer.length + 1 ≤ s.par.packCap by omega)
  exact .cons (congrArg s.finishPacker e) rfl ⟨[], _, rfl, hpk.trans hlen⟩

/-- An operation that is the shared add of an `n`-bit field moves the position on by `n`. -/
theorem LengthFrom.add {w n : Nat} {v : BitVec w} {i : Instr}
    (hi : ∀ s, exec i s = s.finishPacker (s.packer.addField s.par.packCap v n)) (hp : i.port = .packer)
    (hroom : bytesFor (q + n) ≤ 12) (hrest : LengthFrom p (q + n) ops len) : LengthFrom p q (i :: ops) len := by
  rintro s rfl ho rfl
  obtain ⟨hlo, hhi⟩ := s.par.packCap_legal
  obtain ⟨pk, e, -, ho', hpos⟩ := Packer.addField_ok v ho hhi (hroom.trans hlo)
  exact .cons ((hi s).trans (congrArg s.finishPacker e)) hp (hrest _ rfl ho' hpos)

theorem LengthFrom.pAdd8 {v : BitVec 8} (hrest : LengthFrom p (q + 8) ops len)
    (hroom : bytesFor (q + 8) ≤ 12 := by decide) : LengthFrom p q (.pAdd8 v :: ops) len :=
  .add (fun _ => rfl) rfl hroom hrest

theorem LengthFrom.pAdd16 {v : BitVec 16} (hrest : LengthFrom p (q + 16) ops len)
    (hroom : bytesFor (q + 16) ≤ 12 := by decide) : LengthFrom p q (.pAdd16 v :: ops) len :=
  .add (fun _ => rfl) rfl hroom hrest

theorem LengthFrom.pAdd32 {v : BitVec 32} (hrest : LengthFrom p (q + 32) ops len)
    (hroom : bytesFor (q + 32) ≤ 12 := by decide) : LengthFrom p q (.pAdd32 v :: ops) len :=
  .add (fun _ => rfl) rfl hroom hrest

/-- P.BEGINQ leaves the Packer after its header. -/
theorem BuildsLength.pBeginQ {s : State} {cmd : BitVec 3} {id : BitVec 4} (hrest : LengthFrom s.par 7 ops len) :
    BuildsLength (.pBeginQ cmd id :: ops) s len := by
  obtain ⟨ho, hpos⟩ := s.packer.beginHeader_pos (deviceHeader cmd id)
  exact .cons rfl rfl (hrest _ rfl ho hpos)

/-- P.BEGINA leaves the Packer at the start. -/
theorem BuildsLength.pBeginA {s : State} (hrest : LengthFrom s.par 0 ops len) : BuildsLength (.pBeginA :: ops) s len :=
  .cons rfl rfl (hrest _ rfl (Nat.zero_le _) s.packer.rewind_pos)

end

/-- The query lengths of the five commands (30_encoding.md R92): their codes are different (log 3). -/
theorem queryLength_commands (p : Config.Params) :
    Config.queryLength p Config.cmdControl = 5 ∧ Config.queryLength p p.cmdInfo = 2 ∧
    Config.queryLength p p.cmdWrite = 9 ∧ Config.queryLength p p.cmdRead = 5 ∧ Config.queryLength p p.cmdFlash = 12 := by
  have hcodes := p.codes_distinct
  simp only [List.nodup_cons, List.mem_cons, List.not_mem_nil, or_false, not_or] at hcodes
  simp only [Config.queryLength, Config.cmdControl]
  grind

/-- The answer lengths of the five commands (30_encoding.md R93): their codes are different (log 3). -/
theorem answerLength_commands (p : Config.Params) :
    Config.answerLength p Config.cmdControl = 6 ∧ Config.answerLength p p.cmdInfo = 8 ∧
    Config.answerLength p p.cmdWrite = 6 ∧ Config.answerLength p p.cmdRead = 6 ∧ Config.answerLength p p.cmdFlash = 7 := by
  have hcodes := p.codes_distinct
  simp only [List.nodup_cons, List.mem_cons, List.not_mem_nil, or_false, not_or] at hcodes
  simp only [Config.answerLength, Config.cmdControl]
  grind

/-- Settles O35: for each layout, the position its fields reach and the byte P.END adds. -/
theorem frameLengthsMatchTheTables : Obligations.FrameLengthsMatchTheTables := by
  intro s _ id x y z v w b
  obtain ⟨hqControl, hqInfo, hqWrite, hqRead, hqFlash⟩ := queryLength_commands s.par
  obtain ⟨haControl, haInfo, haWrite, haRead, haFlash⟩ := answerLength_commands s.par
  rw [hqControl, hqInfo, hqWrite, hqRead, hqFlash, haControl, haInfo, haWrite, haRead, haFlash]
  exact ⟨.pBeginQ (.pAdd16 .pEnd), .pBeginQ .pEnd, .pBeginQ (.pAdd16 (.pAdd32 .pEnd)), .pBeginQ (.pAdd16 .pEnd),
    .pBeginQ (.pAdd32 (.pAdd32 .pEnd)), .pBeginA (.pAdd16 (.pAdd16 .pEnd)), .pBeginA (.pAdd16 (.pAdd16 (.pAdd16 .pEnd))),
    .pBeginA (.pAdd32 .pEnd), .pBeginA (.pAdd32 .pEnd), .pBeginA (.pAdd8 (.pAdd32 .pEnd))⟩

end Sys2Proof.Machine
end

section
/-! SUPPORT. The Packer's composite builders (43_packer_composite.md): a builder as a sequence of fields between a begin operation
and P.END; the stream bits such a sequence leaves; and the frame those bits are, byte by byte. -/

namespace Sys2Proof.Machine

/-! ### The bits of a field -/

/-- The bits of a field in the order they are deposited, the most significant first (30_encoding.md R73). -/
def bitsOf {w : Nat} (v : BitVec w) : List Bool := (List.range w).map v.getMsbD

@[simp] theorem length_bitsOf {w : Nat} (v : BitVec w) : (bitsOf v).length = w := by
  simp [bitsOf]

theorem getElem?_bitsOf {w j : Nat} (v : BitVec w) (h : j < w) : (bitsOf v)[j]? = some (v.getMsbD j) := by
  simp [bitsOf, h]

/-- The bits of a concatenation are the bits of its parts. `no_index`: `simp` is to find it in a byte's layout, whose width is
written 7 and not as the sum of its parts' widths. -/
@[simp] theorem bitsOf_append {m n : Nat} (x : BitVec m) (y : BitVec n) :
    bitsOf (no_index (x ++ y)) = bitsOf x ++ bitsOf y := by
  simp only [bitsOf, List.range_add, List.map_append, List.map_map]
  refine congrArg₂ _ (List.map_congr_left fun j hj => ?_) (List.map_congr_left fun j _ => ?_)
  · rw [BitVec.getMsbD_append, if_neg (Nat.not_le.mpr (List.mem_range.mp hj))]
  · rw [Function.comp_apply, BitVec.getMsbD_append, if_pos (Nat.le_add_right m j), Nat.add_sub_cancel_left]

theorem bitsOf_zero (n : Nat) : bitsOf 0#n = List.replicate n false := by
  rw [bitsOf, List.eq_replicate_iff]
  simp

/-- `n` bits of a field from its bit `i` on, the most significant bit counted as bit 0. -/
def slice {w : Nat} (v : BitVec w) (i n : Nat) : List Bool := (List.range' i n).map v.getMsbD

theorem bitsOf_eq_slice {w : Nat} (v : BitVec w) : bitsOf v = slice v 0 w := by
  rw [bitsOf, slice, List.range_eq_range']

/-- A slice as the layouts write it, by its lowest bit. -/
theorem bitsOf_extractLsb' {w : Nat} (v : BitVec w) {lo n : Nat} (h : lo + n ≤ w) :
    bitsOf (v.extractLsb' lo n) = slice v (w - (lo + n)) n := by
  rw [bitsOf, slice, List.range'_eq_map_range, List.map_map]
  refine List.map_congr_left fun j hj => ?_
  have hj := List.mem_range.mp hj
  simp only [Function.comp_apply, BitVec.getMsbD, BitVec.getLsbD_extractLsb']
  rw [decide_eq_true hj, decide_eq_true (show n - 1 - j < n by omega),
    decide_eq_true (show w - (lo + n) + j < w by omega)]
  simp only [Bool.true_and]
  congr 1; omega

/-- Two neighbouring slices of a field are one. -/
theorem slice_append {w : Nat} (v : BitVec w) {i j m n : Nat} (h : i + m = j) :
    slice v i m ++ slice v j n = slice v i (m + n) := by
  rw [slice, slice, slice, ← h, ← List.map_append, List.range'_append_1]

/-- The same before the rest of the stream. -/
theorem slice_append_append {w : Nat} (v : BitVec w) {i j m n : Nat} (rest : List Bool) (h : i + m = j) :
    slice v i m ++ (slice v j n ++ rest) = slice v i (m + n) ++ rest := by
  rw [← List.append_assoc, slice_append v h]

/-! ### The fields of a builder -/

/-- A field of a builder's layout: the builders add fields of 16 and of 32 bits only (R150 to R158). -/
inductive FrameField where
  | half (v : BitVec 16)
  | word (v : BitVec 32)

namespace FrameField

def width : FrameField → Nat
  | .half _ => 16
  | .word _ => 32

def value : (f : FrameField) → BitVec f.width
  | .half v => v
  | .word v => v

/-- The bits of the field, in the order they are deposited. -/
def bits : FrameField → List Bool
  | .half v => slice v 0 16
  | .word v => slice v 0 32

theorem bits_eq (f : FrameField) : f.bits = bitsOf f.value := by
  cases f <;> exact (bitsOf_eq_slice _).symm

/-- The primitive that adds the field. -/
def op : FrameField → Instr
  | .half v => .pAdd16 v
  | .word v => .pAdd32 v

theorem exec_op (f : FrameField) (s : State) :
    exec f.op s = s.finishPacker (s.packer.addField s.par.packCap f.value f.width) := by
  cases f <;> rfl

theorem port_op (f : FrameField) : f.op.port = .packer := by
  cases f <;> rfl

end FrameField

/-- What a builder does after its begin operation: it adds its fields in order and finishes the frame (R159). -/
def Packer.build (cap : Nat) : List FrameField → Packer → Except Status Packer
  | [], pk => pk.endFrame cap
  | f :: fields, pk => do
    let pk ← pk.addField cap f.value f.width
    pk.build cap fields

/-- The operations of a builder after its begin operation. -/
def buildOps (fields : List FrameField) : List Instr := fields.map FrameField.op ++ [.pEnd]

/-- How many stream bits the fields take. -/
def fieldsWidth (fields : List FrameField) : Nat := (fields.map FrameField.width).sum

theorem Packer.build_cons_ok {pk pk' : Packer} {cap : Nat} {f : FrameField} (fields : List FrameField)
    (h : pk.addField cap f.value f.width = .ok pk') : pk.build cap (f :: fields) = pk'.build cap fields := by
  simp only [Packer.build, h]; rfl

/-! ### Builders as sequences of primitives -/

/-- With room for the whole frame, whatever PBUF holds, a builder's fields and P.END succeed, and run one after another as
operations they leave the same Packer (R159). -/
theorem build_eq_runAll (fields : List FrameField) : ∀ s : State, s.packer.off.toNat ≤ 6 →
    bytesFor (s.packer.pos + fieldsWidth fields) + 1 ≤ s.par.packCap →
    ∃ pk ds u, s.packer.build s.par.packCap fields = .ok pk ∧ runAll (buildOps fields) s = some (ds, u) ∧
      u.packer = pk := by
  induction fields with
  | nil =>
    intro s ho hroom
    have hlen := Packer.length_eq _ ho
    obtain ⟨pk, e, -, -⟩ := Packer.endFrame_ok s.par.packCap_legal.2 (hlen ▸ hroom)
    exact ⟨pk, _, _, e, runAll_packer (congrArg s.finishPacker e) rfl rfl, rfl⟩
  | cons f fields ih =>
    intro s ho hroom
    rw [fieldsWidth, List.map_cons, List.sum_cons, ← Nat.add_assoc] at hroom
    obtain ⟨pk, e, -, ho', hpos⟩ := Packer.addField_ok f.value (n := f.width) ho s.par.packCap_legal.2
      (show bytesFor (s.packer.pos + f.width) ≤ s.par.packCap by simp only [bytesFor] at hroom ⊢; omega)
    obtain ⟨pk', ds, u, hbuild, hrun, hu⟩ :=
      ih { s with packer := pk, pResp := some ⟨.ok, 0⟩ } ho' (by rw [hpos]; exact hroom)
    exact ⟨pk', _, u, (Packer.build_cons_ok fields e).trans hbuild,
      runAll_packer ((f.exec_op s).trans (congrArg s.finishPacker e)) f.port_op hrun, hu⟩

/-- A builder that is a begin operation, fields of at most 64 bits and P.END has the effect of that sequence: PBUF has room for
its frame, since PACK_CAP is at least 12 (R159). -/
theorem runsAs_of_build {i begin : Instr} {s : State} {pk : Packer} {fields : List FrameField}
    (hi : exec i s = s.finishPacker (pk.build s.par.packCap fields))
    (hbegin : exec begin s = .next { s with packer := pk, pResp := some ⟨.ok, 0⟩ }) (hport : begin.port = .packer)
    (hoff : pk.off.toNat ≤ 6) (hpos : pk.pos ≤ 7) (hwidth : fieldsWidth fields ≤ 64) :
    RunsAs i s (begin :: buildOps fields) := by
  have hroom : bytesFor (pk.pos + fieldsWidth fields) + 1 ≤ s.par.packCap := by
    have hcap := s.par.packCap_legal.1
    simp only [bytesFor]; omega
  obtain ⟨pk', ds, u, hbuild, hrun, hu⟩ :=
    build_eq_runAll fields { s with packer := pk, pResp := some ⟨.ok, 0⟩ } hoff hroom
  exact ⟨_, _, u, hi.trans (congrArg s.finishPacker hbuild), rfl, runAll_packer hbegin hport hrun, hu.symm, rfl⟩

/-- A builder of a query: P.BEGINQ, the fields, P.END. -/
theorem runsAs_query {i : Instr} {s : State} {cmd : BitVec 3} {id : BitVec 4} (fields : List FrameField)
    (hi : exec i s = s.finishPacker ((s.packer.beginHeader (deviceHeader cmd id)).build s.par.packCap fields))
    (hwidth : fieldsWidth fields ≤ 64 := by simp [fieldsWidth, FrameField.width]) :
    RunsAs i s (.pBeginQ cmd id :: buildOps fields) := by
  obtain ⟨hoff, hpos⟩ := s.packer.beginHeader_pos (deviceHeader cmd id)
  exact runsAs_of_build hi rfl rfl hoff hpos.le hwidth

/-- A builder of an answer: P.BEGINA, the fields, P.END. -/
theorem runsAs_answer {i : Instr} {s : State} (fields : List FrameField)
    (hi : exec i s = s.finishPacker (s.packer.rewind.build s.par.packCap fields))
    (hwidth : fieldsWidth fields ≤ 64 := by simp [fieldsWidth, FrameField.width]) :
    RunsAs i s (.pBeginA :: buildOps fields) :=
  runsAs_of_build hi rfl rfl (Nat.zero_le 6) (Nat.zero_le 7) hwidth

/-- Settles O34: the fields of each builder. -/
theorem buildersEqualTheirSequences : Obligations.BuildersEqualTheirSequences := fun _ =>
  ⟨fun _ v => runsAs_query [.half v] rfl, fun a m => runsAs_answer [.half a, .half m] rfl, fun _ => runsAs_query [] rfl,
    fun v0 v1 v2 => runsAs_answer [.half v0, .half v1, .half v2] rfl,
    fun _ x v => runsAs_query [.half x, .word v] rfl, fun v => runsAs_answer [.word v] rfl,
    fun _ x => runsAs_query [.half x] rfl, fun v => runsAs_answer [.word v] rfl,
    fun _ a w => runsAs_query [.word a, .word w] rfl⟩

/-! ### The stream bits of a builder -/

/-- The stream bits of the fields, in order. -/
def fieldBits (fields : List FrameField) : List Bool := fields.flatMap FrameField.bits

@[simp] theorem fieldBits_nil : fieldBits [] = [] := rfl

@[simp] theorem fieldBits_cons (f : FrameField) (fields : List FrameField) :
    fieldBits (f :: fields) = f.bits ++ fieldBits fields := rfl

/-- The stream bits a Packer has written. -/
def Packer.stream (pk : Packer) : List Bool := (List.range pk.pos).map pk.streamBit

/-- Adding a field appends its bits to the stream (30_encoding.md R72, R73). -/
theorem Packer.FieldAdded.stream {w : Nat} {old new : Packer} {v : BitVec w} (h : old.FieldAdded new v w) :
    new.stream = old.stream ++ bitsOf v := by
  simp only [Packer.stream, h.pos, List.range_add, List.map_append, List.map_map, bitsOf]
  refine congrArg₂ _ (List.map_congr_left fun k hk => h.earlier k (List.mem_range.mp hk))
    (List.map_congr_left fun j hj => ?_)
  have hj := List.mem_range.mp hj
  rw [Function.comp_apply, h.bits j hj, BitVec.getMsbD, decide_eq_true hj, Bool.true_and]

/-- The Packer, legal and framed, has written exactly these stream bits, over a PBUF that held `old` and is unchanged after
them. -/
structure Packer.Carries (pk : Packer) (cap : Nat) (old : Memory) (bits : List Bool) : Prop where
  legal : pk.Legal cap
  framed : pk.Framed
  stream : pk.stream = bits
  outside : ∀ k, bytesFor pk.pos ≤ k → Memory.read pk.pbuf k = Memory.read old k

namespace Packer.Carries

variable {pk : Packer} {cap : Nat} {old : Memory} {bits : List Bool}

theorem pos (h : pk.Carries cap old bits) : pk.pos = bits.length := by
  simp [← h.stream, Packer.stream]

theorem off_le (h : pk.Carries cap old bits) : pk.off.toNat ≤ 6 := by
  obtain ⟨⟨_, hoff, _⟩, _⟩ := h
  exact hoff

theorem length_eq (h : pk.Carries cap old bits) : pk.length = bytesFor pk.pos := Packer.length_eq pk h.off_le

theorem rewind (hwf : Memory.wf pk.pbuf cap) : pk.rewind.Carries cap pk.pbuf [] :=
  ⟨Packer.rewind_legal hwf, pk.rewind_framed, rfl, fun _ _ => rfl⟩

/-- A field with room adds its bits. -/
theorem depositField {w : Nat} (h : pk.Carries cap old bits) (v : BitVec w) (hcap : cap ≤ 1024)
    (hroom : bytesFor (pk.pos + w) ≤ cap) : (pk.depositField v w).Carries cap old (bits ++ bitsOf v) := by
  obtain ⟨hlegal, hfield, -, -⟩ := Packer.depositField_spec v hcap w h.legal hroom
  refine ⟨hlegal, hfield.framed h.off_le hlegal.2.1 h.framed, by rw [hfield.stream, h.stream], fun k hk => ?_⟩
  rw [hfield.pos] at hk
  rw [hfield.outside k (.inr hk), h.outside k (by simp only [bytesFor] at hk ⊢; omega)]

/-- A builder with room for its fields finishes the frame of a Packer that carries their bits too. -/
theorem build (hcap : cap ≤ 1024) (fields : List FrameField) : ∀ {pk : Packer} {bits : List Bool},
    pk.Carries cap old bits → bytesFor (bits ++ fieldBits fields).length ≤ cap →
    ∃ pk' : Packer, pk'.Carries cap old (bits ++ fieldBits fields) ∧ pk.build cap fields = pk'.endFrame cap := by
  induction fields with
  | nil => exact fun h _ => ⟨_, (List.append_nil _).symm ▸ h, rfl⟩
  | cons f fields ih =>
    intro pk bits h hroom
    rw [fieldBits_cons, f.bits_eq, ← List.append_assoc] at hroom ⊢
    have hadd : bytesFor (pk.pos + f.width) ≤ cap := by
      simp only [List.length_append, length_bitsOf] at hroom
      rw [h.pos]; simp only [bytesFor] at hroom ⊢; omega
    obtain ⟨pk', hcarries, hbuild⟩ := ih (h.depositField f.value hcap hadd) hroom
    refine ⟨pk', hcarries, (Packer.build_cons_ok fields ?_).trans hbuild⟩
    exact if_pos (Packer.hasRoom_iff.mpr hadd)

end Packer.Carries

/-! ### The bytes of a frame -/

/-- The covered bytes of a frame with these data bits: framing bit 0 in the first byte, 1 in every later one
(30_encoding.md R71). -/
def framedBytes : List Bits7 → List Byte
  | [] => []
  | d :: groups => (0#1 ++ d) :: groups.map fun d => 1#1 ++ d

@[simp] theorem length_framedBytes (groups : List Bits7) : (framedBytes groups).length = groups.length := by
  cases groups <;> simp [framedBytes]

theorem getElem_framedBytes (groups : List Bits7) {k : Nat} (h : k < groups.length) :
    (framedBytes groups)[k]'(by simpa using h) = ((if k = 0 then 0#1 else 1#1) ++ groups[k] : BitVec (1 + 7)) := by
  cases groups with
  | nil => exact absurd h (Nat.not_lt_zero k)
  | cons d groups => cases k <;> simp [framedBytes]

@[simp] theorem Packer.length_prefixBytes (pk : Packer) (c : Nat) : (pk.prefixBytes c).length = c := by
  simp [Packer.prefixBytes]

@[simp] theorem Packer.getElem_prefixBytes (pk : Packer) {c k : Nat} (h : k < (pk.prefixBytes c).length) :
    (pk.prefixBytes c)[k] = pk.byte k := by
  simp [Packer.prefixBytes]

/-- Bit `j` of group `k` is stream bit `7k + j` (30_encoding.md R72). -/
theorem getElem?_flatMap_bitsOf {j : Nat} (hj : j < 7) (groups : List Bits7) : ∀ k,
    (groups.flatMap bitsOf)[7 * k + j]? = groups[k]?.map fun d => d.getMsbD j := by
  induction groups with
  | nil => intro k; rfl
  | cons d groups ih =>
    intro k
    rw [List.flatMap_cons]
    cases k with
    | zero =>
      rw [Nat.mul_zero, Nat.zero_add, List.getElem?_append_left (by simpa using hj), getElem?_bitsOf d hj]; rfl
    | succ k =>
      rw [List.getElem?_append_right (by rw [length_bitsOf]; omega), List.getElem?_cons_succ, ← ih k, length_bitsOf]
      congr 1; omega

theorem length_flatMap_bitsOf (groups : List Bits7) : (groups.flatMap bitsOf).length = 7 * groups.length := by
  induction groups with
  | nil => rfl
  | cons d groups ih => rw [List.flatMap_cons, List.length_append, ih, length_bitsOf, List.length_cons]; omega

/-- The stream bits of the filled bytes are those written and a pad of 0 bits (30_encoding.md R72, R80). -/
theorem Packer.Carries.streamBit {pk : Packer} {cap : Nat} {old : Memory} {bits : List Bool} {z k : Nat}
    (h : pk.Carries cap old bits) (hlen : 7 * pk.length = pk.pos + z) (hk : k < pk.pos + z) :
    (bits ++ List.replicate z false)[k]? = some (pk.streamBit k) := by
  rcases Nat.lt_or_ge k pk.pos with hwritten | hpad
  · rw [List.getElem?_append_left (h.pos ▸ hwritten), ← h.stream]
    simp [Packer.stream, hwritten]
  · rw [List.getElem?_append_right (h.pos ▸ hpad), List.getElem?_replicate_of_lt (by rw [← h.pos]; omega)]
    rw [h.length_eq] at hlen
    exact congrArg some (Packer.streamBit_pad h.legal hpad (by omega)).symm

/-- The filled bytes of a Packer whose stream bits, padded with 0 to whole bytes, are these groups of seven. -/
theorem Packer.Carries.filledBytes {pk : Packer} {cap : Nat} {old : Memory} {bits : List Bool} {groups : List Bits7}
    {z : Nat} (h : pk.Carries cap old bits) (hz : z < 7)
    (hgroups : groups.flatMap bitsOf = bits ++ List.replicate z false) :
    pk.length = groups.length ∧ pk.prefixBytes pk.length = framedBytes groups := by
  have hcount := congrArg List.length hgroups
  rw [length_flatMap_bitsOf, List.length_append, ← h.pos, List.length_replicate] at hcount
  have hlen : pk.length = groups.length := by
    rw [h.length_eq, bytesFor]; omega
  refine ⟨hlen, List.ext_getElem (by simp [hlen]) fun k _ hk' => ?_⟩
  rw [length_framedBytes] at hk'
  rw [Packer.getElem_prefixBytes, getElem_framedBytes groups hk']
  refine Packer.byte_eq ?_ fun j hj => ?_
  · rw [h.framed k (by omega)]; split <;> simp [*]
  · have hbit := h.streamBit (z := z) (k := 7 * k + j) (by omega) (by omega)
    rw [← hgroups, getElem?_flatMap_bitsOf hj, List.getElem?_eq_getElem hk', Option.map_some] at hbit
    rw [← Option.some.inj hbit, BitVec.getMsbD, decide_eq_true hj, Bool.true_and]

/-- P.END after at least one filled byte leaves the frame of the filled bytes (42_packer_framing.md R134). -/
theorem Packer.endFrame_sealed {pk : Packer} {cap : Nat} (hl : pk.Legal cap) (hcap : cap ≤ 1024) (hne : 0 < pk.length)
    (hroom : pk.length + 1 ≤ cap) :
    ∃ pk', pk.endFrame cap = .ok pk' ∧ pk'.Holds (sealed (pk.prefixBytes pk.length)) ∧ pk'.length = pk.length + 1 ∧
      ∀ k, pk.length + 1 ≤ k → Memory.read pk'.pbuf k = Memory.read pk.pbuf k := by
  obtain ⟨pk', e, -, hcur, hoff, hread, -, -⟩ := Packer.endFrame_spec hl hcap hroom
  rw [framingByte_or_setWidth, if_neg (by omega)] at hread
  have hlen : pk'.length = pk.length + 1 := (Packer.length_of_off_zero hoff).trans hcur
  have hsealed : (sealed (pk.prefixBytes pk.length)).length = pk.length + 1 := by simp [sealed]
  refine ⟨pk', e, ⟨hlen.trans hsealed.symm, hoff, fun k hk => ?_⟩, hlen,
    fun k hk => (hread k).trans (if_neg (by omega))⟩
  rw [hread]
  split
  case isTrue hchk =>
    subst hchk
    simp [sealed]
  case isFalse hchk =>
    have hk : k < pk.length := by omega
    simp [sealed, Packer.read_eq hl hk, List.getElem?_append_left, hk]

/-! ### Builders as frames -/

/-- A builder leaves the frame whose covered bytes hold its header's bits, its fields' bits and the pad. -/
theorem builds_of_build {i : Instr} {s : State} {pk : Packer} {bits : List Bool} {fields : List FrameField}
    {groups : List Bits7} {z : Nat} (hpk : pk.Carries s.par.packCap s.packer.pbuf bits)
    (hi : exec i s = s.finishPacker (pk.build s.par.packCap fields)) (hz : z < 7)
    (hgroups : groups.flatMap bitsOf = bits ++ fieldBits fields ++ List.replicate z false)
    (hne : 0 < groups.length) (hroom : groups.length + 1 ≤ 12) :
    Builds i s (groups.length + 1) (framedBytes groups) := by
  obtain ⟨hlo, hhi⟩ := s.par.packCap_legal
  have hcount := congrArg List.length hgroups
  rw [length_flatMap_bitsOf, List.length_append, List.length_replicate] at hcount
  obtain ⟨full, hfull, hbuild⟩ := hpk.build hhi fields (by simp only [bytesFor]; omega)
  obtain ⟨hlen, hbytes⟩ := hfull.filledBytes hz hgroups
  obtain ⟨pk', e, hholds, hlen', hlater⟩ := Packer.endFrame_sealed hfull.legal hhi (by omega) (by omega)
  rw [hbytes] at hholds
  rw [hlen] at hlen' hlater
  refine ⟨_, hi.trans (congrArg s.finishPacker (hbuild.trans e)), hholds, hlen', fun k hk => ?_, rfl⟩
  have hfilled := hfull.length_eq
  exact (hlater k hk).trans (hfull.outside k (by omega))

/-- A builder of a query leaves the bytes whose data bits are `groups`. That they hold the header, the fields and `z` pad bits is
checked by joining the slices of each field again. -/
theorem builds_query {i : Instr} {s : State} {cmd : BitVec 3} {id : BitVec 4} (fields : List FrameField)
    {groups : List Bits7} (z : Nat) (hs : s.Legal)
    (hi : exec i s = s.finishPacker ((s.packer.beginHeader (deviceHeader cmd id)).build s.par.packCap fields))
    (hgroups : groups.flatMap bitsOf = bitsOf (deviceHeader cmd id) ++ fieldBits fields ++ List.replicate z false := by
      simp [deviceHeader, Config.cmdControl, FrameField.bits, bitsOf_zero, bitsOf_extractLsb', slice_append_append])
    (hz : z < 7 := by decide) (hne : 0 < groups.length := by simp) (hroom : groups.length + 1 ≤ 12 := by simp) :
    Builds i s (groups.length + 1) (framedBytes groups) := by
  obtain ⟨⟨_, _, _, hwf, _⟩, -⟩ := hs
  obtain ⟨hlo, hhi⟩ := s.par.packCap_legal
  exact builds_of_build ((Packer.Carries.rewind hwf).depositField (deviceHeader cmd id) hhi
    (by rw [Packer.rewind_pos, bytesFor]; omega)) hi hz hgroups hne hroom

/-- A builder of an answer leaves the bytes whose data bits are `groups`, which hold the fields and `z` pad bits. -/
theorem builds_answer {i : Instr} {s : State} (fields : List FrameField) {groups : List Bits7} (z : Nat) (hs : s.Legal)
    (hi : exec i s = s.finishPacker (s.packer.rewind.build s.par.packCap fields))
    (hgroups : groups.flatMap bitsOf = fieldBits fields ++ List.replicate z false := by
      simp [FrameField.bits, bitsOf_zero, bitsOf_extractLsb', slice_append_append])
    (hz : z < 7 := by decide) (hne : 0 < groups.length := by simp) (hroom : groups.length + 1 ≤ 12 := by simp) :
    Builds i s (groups.length + 1) (framedBytes groups) := by
  obtain ⟨⟨_, _, _, hwf, _⟩, -⟩ := hs
  exact builds_of_build (Packer.Carries.rewind hwf) hi hz hgroups hne hroom

/-- Settles O33: the fields of each builder and the pad bits after them. -/
theorem buildersLayOutTheirFrames : Obligations.BuildersLayOutTheirFrames := by
  intro s hs
  obtain ⟨hqControl, hqInfo, hqWrite, hqRead, hqFlash⟩ := queryLength_commands s.par
  obtain ⟨haControl, haInfo, haWrite, haRead, -⟩ := answerLength_commands s.par
  rw [hqControl, hqInfo, hqWrite, hqRead, hqFlash, haControl, haInfo, haWrite, haRead]
  refine ⟨fun id v => ?_, fun id => ?_, fun id x v => ?_, fun id x => ?_, fun id a w => ?_, fun a m => ?_,
    fun v0 v1 v2 => ?_, fun v => ?_, fun v => ?_⟩
  · exact builds_query (groups := [_, _, _, _]) [.half v] 5 hs rfl
  · exact builds_query (groups := [_]) [] 0 hs rfl
  · exact builds_query (groups := [_, _, _, _, _, _, _, _]) [.half x, .word v] 1 hs rfl
  · exact builds_query (groups := [_, _, _, _]) [.half x] 5 hs rfl
  · exact builds_query (groups := [_, _, _, _, _, _, _, _, _, _, _]) [.word a, .word w] 6 hs rfl
  · exact builds_answer (groups := [_, _, _, _, _]) [.half a, .half m] 3 hs rfl
  · exact builds_answer (groups := [_, _, _, _, _, _, _]) [.half v0, .half v1, .half v2] 1 hs rfl
  · exact builds_answer (groups := [_, _, _, _, _]) [.word v] 3 hs rfl
  · exact builds_answer (groups := [_, _, _, _, _]) [.word v] 3 hs rfl

end Sys2Proof.Machine
end

section
/-! SUPPORT. The Unpacker's operations one at a time (44_unpacker.md): the field readers as one operation over the kinds of field, a
block, and the bytes U.CHKCRC covers. -/

namespace Sys2Proof.Machine

/-! ### Relocation and header peeks -/

/-- A physical index reduced modulo RB_CAP fits `start`, since RB_CAP is at most 2^16 (00_scope.md R7). -/
theorem toNat_ofNat_mod (p : Config.Params) (k : Nat) : (BitVec.ofNat 16 (k % p.rbCap)).toNat = k % p.rbCap := by
  obtain ⟨hlo, hhi⟩ := p.rbCap_legal
  have hlt : k % p.rbCap < p.rbCap := Nat.mod_lt _ hlo
  rw [BitVec.toNat_ofNat, Nat.mod_eq_of_lt (by omega)]

/-- Settles O36: by definition, but for the width of `start`. -/
theorem resetOperationRelocates : Obligations.ResetOperationRelocates :=
  fun s start _ => ⟨_, rfl, toNat_ofNat_mod s.par start.toNat, rfl, rfl, rfl, rfl⟩

theorem exec_uId (s : State) : exec .uId s = s.peekHeader fun b => (b.extractLsb' 0 4).setWidth 32 := rfl

theorem exec_uCmd (s : State) : exec .uCmd s = s.peekHeader fun b => (b.extractLsb' 4 3).setWidth 32 := rfl

theorem exec_uHCmd (s : State) : exec .uHCmd s = s.peekHeader fun b => b.setWidth 32 := rfl

/-- A header peek whose value is that of a number. -/
theorem peeks_of_peekHeader {i : Instr} {s : State} {f : Byte → Word32} {value : Nat} (hi : exec i s = s.peekHeader f)
    (hf : (f (s.logicalByte 0)).toNat = value) : Peeks i s value :=
  ⟨_, _, hi.trans (s.peekHeader_eq f), hf, rfl, rfl, rfl, rfl⟩

/-- A slice of a byte as a number. -/
theorem toNat_setWidth_extractLsb' (b : Byte) (lo n : Nat) (hn : n ≤ 32) :
    ((b.extractLsb' lo n).setWidth 32).toNat = b.toNat / 2 ^ lo % 2 ^ n := by
  rw [BitVec.toNat_setWidth_of_le hn, BitVec.extractLsb'_toNat, Nat.shiftRight_eq_div_pow]

/-- Settles O37: the slice each peek takes, as a number. -/
theorem headerPeeksReadLogicalByteZero : Obligations.HeaderPeeksReadLogicalByteZero := by
  intro s
  refine ⟨peeks_of_peekHeader (exec_uId s) ?_, peeks_of_peekHeader (exec_uCmd s) ?_,
    peeks_of_peekHeader (exec_uHCmd s) ?_⟩
  · exact (toNat_setWidth_extractLsb' _ 0 4 (by decide)).trans (congrArg (· % 16) (Nat.div_one _))
  · exact toNat_setWidth_extractLsb' _ 4 3 (by decide)
  · exact BitVec.toNat_setWidth_of_le (by decide)

/-! ### The field readers -/

namespace FieldKind

/-- Whether the reader extends by the field's sign (R176 to R180). -/
def signed : FieldKind → Bool
  | .u8 => false
  | .i8 => true
  | .u16 => false
  | .i16 => true
  | .i32 => false

/-- The response made of a field: zeros or the field's own sign above it. -/
def extend : (k : FieldKind) → BitVec k.width → Word32
  | .u8, x => x.setWidth 32
  | .i8, x => x.signExtend 32
  | .u16, x => x.setWidth 32
  | .i16, x => x.signExtend 32
  | .i32, x => x

theorem exec_reader (k : FieldKind) (s : State) : exec k.reader s = s.readField k.width k.extend := by
  cases k <;> rfl

theorem port_reader (k : FieldKind) : k.reader.port = .unpacker := by
  cases k <;> rfl

theorem width_legal (k : FieldKind) : 1 ≤ k.width ∧ k.width ≤ 32 := by
  cases k <;> decide

/-- The reader's answer for a value is that for the value's low bits (R189). -/
theorem decoded_eq (k : FieldKind) (v : Word32) : k.decoded v = k.extend (v.setWidth k.width) := by
  cases k
  case i32 => exact (BitVec.setWidth_eq v).symm
  all_goals rfl

theorem getLsbD_extend (k : FieldKind) (x : BitVec k.width) {b : Nat} (hb : b < 32) :
    (k.extend x).getLsbD b = if b < k.width then x.getLsbD b else (k.signed && x.getLsbD (k.width - 1)) := by
  have hzero : (x.setWidth 32).getLsbD b = if b < k.width then x.getLsbD b else (false && x.getLsbD (k.width - 1)) := by
    rw [BitVec.getLsbD_setWidth, decide_eq_true hb, Bool.true_and, Bool.false_and]
    split
    · rfl
    · exact BitVec.getLsbD_of_ge x b (by omega)
  have hsign : (x.signExtend 32).getLsbD b = if b < k.width then x.getLsbD b else (true && x.getLsbD (k.width - 1)) := by
    rw [BitVec.getLsbD_signExtend, decide_eq_true hb, Bool.true_and, Bool.true_and, BitVec.msb_eq_getLsbD_last]
  cases k
  case u8 | u16 => exact hzero
  case i8 | i16 => exact hsign
  case i32 => exact (if_pos hb).symm

/-- A reader inside the cursor's range (R181): everything it does, bit by bit. -/
theorem readsField (k : FieldKind) {s : State} (h : (s.unpacker.pos + k.width) / 7 ≤ 65535) :
    ReadsField k.reader s k.width k.signed := by
  obtain ⟨hptr, hboff, -⟩ := s.unpacker.seek_spec h
  refine ⟨_, _, (k.exec_reader s).trans (State.readField_eq h), fun b hb => ?_, hptr, hboff, rfl, rfl⟩
  have hw := k.width_legal.1
  rw [getLsbD_extend k _ hb, getLsbD_readBits _ _ _ (k.width - 1) (by omega), Nat.sub_self, Nat.add_zero]
  split
  case isTrue hfield => rw [getLsbD_readBits _ _ _ _ hfield]
  case isFalse => rfl

/-- A reader past the cursor's end (R181). -/
theorem reader_range (k : FieldKind) {s : State} (h : 65535 < (s.unpacker.pos + k.width) / 7) :
    exec k.reader s = .next (s.answer .unpacker .range 0) :=
  (k.exec_reader s).trans (if_pos (pastCursorEnd_iff.mpr h))

end FieldKind

/-- Settles O38: `FieldKind.readsField` at each kind. -/
theorem readersReturnTheirFields : Obligations.ReadersReturnTheirFields := fun _ =>
  ⟨fun h => ⟨FieldKind.u8.readsField h, FieldKind.i8.readsField h⟩,
    fun h => ⟨FieldKind.u16.readsField h, FieldKind.i16.readsField h⟩, fun h => FieldKind.i32.readsField h⟩

/-! ### U.GETBLK -/

/-- U.GETBLK past the cursor's end (R182). -/
theorem execUGetBlk_range {s : State} {size : Nat} (addr : BitVec 32) (h : 65535 < (s.unpacker.pos + 8 * size) / 7) :
    execUGetBlk size addr s = .next (s.answer .unpacker .range 0) :=
  if_pos (pastCursorEnd_iff.mpr h)

/-- U.GETBLK inside the cursor's range (R182). -/
theorem execUGetBlk_inside {s : State} {size : Nat} (addr : BitVec 32) (h : (s.unpacker.pos + 8 * size) / 7 ≤ 65535) :
    execUGetBlk size addr s = .next { s with
      hm := Memory.writeBlock s.hm addr (fun i => readBits s.logicalByte (s.unpacker.pos + 8 * i) 8) size
      unpacker := (s.unpacker.seek (s.unpacker.pos + 8 * size)).countRead
      uResp := some ⟨.ok, 0⟩ } :=
  if_neg (by rw [pastCursorEnd_iff]; omega)

/-- Settles O39: the range check of each operation. -/
theorem readersStopAtTheCursorsEnd : Obligations.ReadersStopAtTheCursorsEnd := fun _ =>
  ⟨fun h => ⟨FieldKind.u8.reader_range h, FieldKind.i8.reader_range h⟩,
    fun h => ⟨FieldKind.u16.reader_range h, FieldKind.i16.reader_range h⟩, fun h => FieldKind.i32.reader_range h,
    fun _ addr h => execUGetBlk_range addr h⟩

/-- Settles O40: a block inside the cursor's range is short enough for its addresses to be different. -/
theorem getBlockStoresTheFields : Obligations.GetBlockStoresTheFields := by
  intro s size addr h
  obtain ⟨hptr, hboff, -⟩ := s.unpacker.seek_spec h
  refine ⟨_, execUGetBlk_inside addr h,
    fun i hi => ⟨_, Memory.read_writeBlock_same s.hm addr _ (by omega) hi, fun j hj => ?_⟩,
    fun a ha => Memory.read_writeBlock_ne s.hm addr _ size a ha, hptr, hboff, rfl, rfl⟩
  rw [getLsbD_readBits _ _ _ _ (by omega), show 8 - 1 - (7 - j) = j by omega]

/-! ### U.CHKCRC -/

section

variable {s : State}

/-- The first physical run is the covered logical bytes before the ring's end (R185). -/
theorem State.firstRun_eq (s : State) (n : Nat) :
    s.firstRun n =
      (List.range (min (s.unpacker.start.toNat + n) s.par.rbCap - s.unpacker.start.toNat)).map s.logicalByte := by
  refine List.map_congr_left fun i hi => ?_
  have hi := List.mem_range.mp hi
  rw [State.logicalByte, Nat.mod_eq_of_lt (by omega)]

/-- The second physical run is the covered logical bytes from the ring's end on (R185). -/
theorem State.secondRun_eq (hstart : s.unpacker.start.toNat < s.par.rbCap) {n : Nat} (hn : n ≤ s.par.rbCap) :
    s.secondRun n = (List.range (s.unpacker.start.toNat + n - s.par.rbCap)).map fun i =>
      s.logicalByte (s.par.rbCap - s.unpacker.start.toNat + i) := by
  refine List.map_congr_left fun i hi => ?_
  have hi := List.mem_range.mp hi
  have hwrap : s.unpacker.start.toNat + (s.par.rbCap - s.unpacker.start.toNat + i) = s.par.rbCap + i := by omega
  rw [State.logicalByte, hwrap, Nat.add_mod_left, Nat.mod_eq_of_lt (by omega)]

/-- The two runs one after the other are the covered logical bytes (R185). -/
theorem State.runs_eq (hstart : s.unpacker.start.toNat < s.par.rbCap) {n : Nat} (hn : n ≤ s.par.rbCap) :
    s.firstRun n ++ s.secondRun n = (List.range n).map s.logicalByte := by
  rw [State.firstRun_eq, State.secondRun_eq hstart hn]
  rcases Nat.lt_or_ge s.par.rbCap (s.unpacker.start.toNat + n) with hwraps | hfits
  · have hsplit : n = (s.par.rbCap - s.unpacker.start.toNat) + (s.unpacker.start.toNat + n - s.par.rbCap) := by omega
    conv_rhs => rw [hsplit, List.range_add, List.map_append, List.map_map]
    rw [Nat.min_eq_right hwraps.le]; rfl
  · rw [Nat.sub_eq_zero_of_le hfits, Nat.min_eq_left hfits, Nat.add_sub_cancel_left, List.range_zero, List.map_nil,
      List.append_nil]

/-- U.CHKCRC of a length the ring can hold compares the checksum of the covered logical bytes with the data bits of the next one
(R184, R185). -/
theorem execUChkCrc_covered {len : Nat} (hstart : s.unpacker.start.toNat < s.par.rbCap) (h0 : 0 < len)
    (h : len ≤ s.par.rbCap) :
    execUChkCrc len s = .next { s with
      unpacker := s.unpacker.countRead
      uResp := some ⟨.ok, if checksum ((List.range (len - 1)).map s.logicalByte) =
        (s.logicalByte (len - 1)).setWidth 7 then 1 else 0⟩ } := by
  have hruns : checksum2 (s.firstRun (len - 1)) (s.secondRun (len - 1)) =
      checksum ((List.range (len - 1)).map s.logicalByte) := by
    rw [← State.runs_eq hstart (by omega)]; exact (checksum_append _ _).symm
  rw [execUChkCrc_inside h0 h]
  simp only [State.frameMatches_iff, hruns]

end

/-- Settles O42: `State.runs_eq`; the second run has as many bytes as the covered range has past the ring's end. -/
theorem physicalRunsAreTheCoveredBytes : Obligations.PhysicalRunsAreTheCoveredBytes := by
  rintro s n ⟨-, ⟨hstart, -⟩, -⟩ hn
  refine ⟨State.runs_eq hstart (by omega), ?_⟩
  rw [State.secondRun, Ne, List.map_eq_nil_iff, List.range_eq_nil]
  omega

/-- Settles O41: `execUChkCrc_covered`. -/
theorem checkCrcComparesTheTrailingField : Obligations.CheckCrcComparesTheTrailingField := by
  rintro s len ⟨-, ⟨hstart, -⟩, -⟩
  exact ⟨fun h => if_pos h, fun h0 h => ⟨_, execUChkCrc_covered hstart h0 h, rfl, rfl, rfl, rfl, rfl⟩⟩

end Sys2Proof.Machine
end

section
/-! SUPPORT. Decoding a frame (44_unpacker.md R186, R189): what the Unpacker's operations answer depends on the bytes of the frame and on
the cursor, not on where in the ring the frame stands; and a reader gives back the field an add appended. -/

namespace Sys2Proof.Machine

/-! ### Reading a field back -/

/-- A data bit at a stream position, from the data bits of its byte (30_encoding.md R72). -/
theorem slotBit_congr {L M : Nat → Byte} {k : Nat} (h : (L (k / 7)).setWidth 7 = (M (k / 7)).setWidth 7) :
    slotBit L k = slotBit M k := by
  have hbit := congrArg (fun x : Bits7 => x.getLsbD (6 - k % 7)) h
  simpa [slotBit, show 6 - k % 7 < 7 by omega] using hbit

/-- The stream bits of a field are the field (R181). -/
theorem readBits_eq {w n q : Nat} {L : Nat → Byte} {v : BitVec w}
    (h : ∀ j < n, slotBit L (q + j) = v.getLsbD (n - 1 - j)) : readBits L q n = v.setWidth n := by
  refine BitVec.eq_of_getLsbD_eq fun i hi => ?_
  rw [getLsbD_readBits L q n i hi, h _ (by omega), BitVec.getLsbD_setWidth, decide_eq_true hi, Bool.true_and]
  congr 1; omega

/-- P.ADDN that is answered `OK` has found room for its field and has deposited it (41_packer_fields.md R110). -/
theorem execPAddN_answered_ok {s t : State} {n : Nat} {v : BitVec 32} {d : Word32} (h : exec (.pAddN n v) s = .next t)
    (hok : t.pResp = some ⟨.ok, d⟩) : bytesFor (s.packer.pos + n) ≤ s.par.packCap ∧
      t = { s with packer := s.packer.depositField v n, pResp := some ⟨.ok, 0⟩ } := by
  change execPAddN n v s = .next t at h
  rw [execPAddN] at h
  split at h
  case isFalse => cases h; cases hok
  case isTrue =>
    rcases Packer.addField_cases s.packer s.par.packCap v n with ⟨hroom, e⟩ | ⟨-, e⟩ <;> rw [e] at h
    · exact ⟨hroom, (Host.Outcome.next.inj h).symm⟩
    · cases h; cases hok

/-- Settles O44: the reader's stream bits are those the add left. -/
theorem readerInvertsAdd : Obligations.ReaderInvertsAdd := by
  rintro s t u kind v ⟨hl, -⟩ hexec hok hpos hbytes
  obtain ⟨hroom, rfl⟩ := execPAddN_answered_ok hexec hok
  have hcap := s.par.packCap_legal.2
  obtain ⟨⟨_, hoff, _⟩, hfield, -, -⟩ := Packer.depositField_spec v hcap kind.width hl hroom
  rw [Packer.length_eq _ hoff, hfield.pos] at hbytes
  have hrange : (u.unpacker.pos + kind.width) / 7 ≤ 65535 := by
    simp only [bytesFor] at hroom; omega
  have hvalue : readBits u.logicalByte u.unpacker.pos kind.width = v.setWidth kind.width := by
    refine readBits_eq fun j hj => ?_
    rw [hpos, ← hfield.bits j hj]
    exact slotBit_congr (hbytes _ (by omega) (by simp only [bytesFor]; omega))
  obtain ⟨-, -, hend⟩ := u.unpacker.seek_spec hrange
  refine ⟨_, (kind.exec_reader u).trans (State.readField_eq hrange), ?_, ?_⟩
  · rw [hvalue, kind.decoded_eq]
  · exact hend.trans (by rw [hpos, hfield.pos])

/-! ### Operations on a ring that holds a frame -/

/-- From the Unpacker's origin the ring holds the bytes `L 0` to `L (len - 1)`, valid throughout the operations, and its cursor
stands at stream position `q`. -/
structure State.Sees (s : State) (L : Nat → Byte) (len q : Nat) : Prop where
  origin : s.unpacker.start.toNat < s.par.rbCap
  fits : len ≤ s.par.rbCap
  holds : ∀ k, ∀ i < len, Memory.read (s.ringAt k) ((s.unpacker.start.toNat + i) % s.par.rbCap) = some (L i)
  cursor : s.unpacker.pos = q

/-- From every state that sees the frame with the cursor at `q`, the operations are all answered `OK` with the data `ds`. -/
def Decodes (L : Nat → Byte) (len q : Nat) (ops : List Instr) (ds : List Word32) : Prop :=
  ∀ s : State, s.Sees L len q → ∃ t, runAll ops s = some (ds, t)

/-- What one reader after another answers, from stream position `q`. -/
def readValues (L : Nat → Byte) : Nat → List FieldKind → List Word32
  | _, [] => []
  | q, k :: fields => k.extend (readBits L q k.width) :: readValues L (q + k.width) fields

section

variable {L : Nat → Byte} {len q : Nat} {ops : List Instr} {ds : List Word32}

/-- A logical byte of the frame (R171). -/
theorem State.Sees.logicalByte {s : State} (h : s.Sees L len q) {i : Nat} (hi : i < len) : s.logicalByte i = L i :=
  State.logicalByte_of_read (h.holds i i hi)

theorem Decodes.nil : Decodes L len q [] [] := fun s _ => ⟨s, rfl⟩

/-- A first operation that leaves the origin where it is, before the rest. -/
theorem Decodes.cons {i : Instr} {q' : Nat} {d : Word32} (hport : i.port = .unpacker)
    (hi : ∀ s : State, s.Sees L len q → ∃ up : Unpacker,
      exec i s = .next { s with unpacker := up, uResp := some ⟨.ok, d⟩ } ∧ up.start = s.unpacker.start ∧ up.pos = q')
    (hrest : Decodes L len q' ops ds) : Decodes L len q (i :: ops) (d :: ds) := by
  intro s hs
  obtain ⟨up, he, hstart, hpos⟩ := hi s hs
  obtain ⟨t, ht⟩ := hrest { s with unpacker := up, uResp := some ⟨.ok, d⟩ }
    ⟨hstart ▸ hs.origin, hs.fits, hstart ▸ hs.holds, hpos⟩
  exact ⟨t, by rw [runAll_cons he (by rw [hport]; rfl), ht]; rfl⟩

/-- A header peek answers from byte 0 of the frame (R173 to R175). -/
theorem Decodes.peek {i : Instr} {f : Byte → Word32} (hport : i.port = .unpacker) (hi : ∀ s, exec i s = s.peekHeader f)
    (hlen : 0 < len) (hrest : Decodes L len q ops ds) : Decodes L len q (i :: ops) (f (L 0) :: ds) :=
  .cons hport (fun s hs => ⟨s.unpacker.countRead, by rw [hi, State.peekHeader_eq, hs.logicalByte hlen], rfl, hs.cursor⟩)
    hrest

/-- U.CHKCRC of the frame's length compares its last byte with the checksum of the others (R184, R185). -/
theorem Decodes.chkCrc (hlen : 0 < len) (hrest : Decodes L len q ops ds) :
    Decodes L len q (.uChkCrc len :: ops)
      ((if checksum ((List.range (len - 1)).map L) = (L (len - 1)).setWidth 7 then 1 else 0) :: ds) := by
  refine .cons rfl (fun s hs => ⟨s.unpacker.countRead, ?_, rfl, hs.cursor⟩) hrest
  have hcovered : (List.range (len - 1)).map s.logicalByte = (List.range (len - 1)).map L :=
    List.map_congr_left fun i hi => hs.logicalByte (by have := List.mem_range.mp hi; omega)
  rw [← hcovered, ← hs.logicalByte (show len - 1 < len by omega)]
  exact execUChkCrc_covered hs.origin hlen hs.fits

/-- A reader whose field lies inside the frame and inside the cursor's range (R181). -/
theorem Decodes.reader (k : FieldKind) (hin : q + k.width ≤ 7 * len) (hrange : q + k.width < 7 * 65536)
    (hrest : Decodes L len (q + k.width) ops ds) :
    Decodes L len q (k.reader :: ops) (k.extend (readBits L q k.width) :: ds) := by
  refine .cons k.port_reader (fun s hs => ?_) hrest
  have hfield : readBits s.logicalByte q k.width = readBits L q k.width :=
    readBits_congr fun j hj => slotBit_congr (by rw [hs.logicalByte (by omega)])
  have hend : (s.unpacker.pos + k.width) / 7 ≤ 65535 := by rw [hs.cursor]; omega
  obtain ⟨-, -, hpos⟩ := s.unpacker.seek_spec hend
  rw [hs.cursor] at hpos
  exact ⟨(s.unpacker.seek (q + k.width)).countRead,
    by rw [k.exec_reader, State.readField_eq hend, hs.cursor, hfield], rfl, hpos⟩

/-- Readers one after another, all of whose fields lie inside the frame and inside the cursor's range. -/
theorem Decodes.readers (fields : List FieldKind) : ∀ {q : Nat}, q + (fields.map FieldKind.width).sum ≤ 7 * len →
    q + (fields.map FieldKind.width).sum < 7 * 65536 →
    Decodes L len (q + (fields.map FieldKind.width).sum) ops ds →
    Decodes L len q (fields.map FieldKind.reader ++ ops) (readValues L q fields ++ ds) := by
  induction fields with
  | nil => exact fun _ _ hrest => hrest
  | cons k fields ih =>
    intro q hin hrange hrest
    rw [List.map_cons, List.sum_cons, ← Nat.add_assoc] at hin hrange hrest
    exact .reader k (by omega) (by omega) (ih hin hrange hrest)

/-- U.RESET to a physical index from which the ring holds the frame (R172). -/
theorem Decodes.afterReset {s : State} {p : Nat} {ptr : BitVec 16} (h : Decodes L len (7 * ptr.toNat) ops ds)
    (hp : p < s.par.rbCap) (hfits : len ≤ s.par.rbCap)
    (hholds : ∀ k, ∀ i < len, Memory.read (s.ringAt k) ((p + i) % s.par.rbCap) = some (L i)) :
    ∃ t, runAll (.uReset (BitVec.ofNat 32 p) ptr :: ops) s = some (0 :: ds, t) := by
  have hcap := s.par.rbCap_legal.2
  have hmod : (BitVec.ofNat 32 p).toNat % s.par.rbCap = p := by
    rw [BitVec.toNat_ofNat, Nat.mod_eq_of_lt (a := p) (by omega), Nat.mod_eq_of_lt hp]
  obtain ⟨t, he, hstart, hptr, hboff, -, ht⟩ := resetOperationRelocates s (BitVec.ofNat 32 p) ptr
  rw [hmod] at hstart
  rw [ht] at he
  obtain ⟨u, hu⟩ := h { s with unpacker := t.unpacker, uResp := some ⟨.ok, 0⟩ }
    ⟨hstart ▸ hp, hfits, hstart ▸ hholds, by simp only [Unpacker.pos, hptr, hboff]; rfl⟩
  exact ⟨u, by rw [runAll_cons he rfl, hu]; rfl⟩

end

/-- Settles O43: what is decoded is a function of the frame and the cursor. -/
theorem decodingIsTransparentToWraparound : Obligations.DecodingIsTransparentToWraparound := by
  intro a b frame p ptr fields hcap hfits hlen hp ha hb hin hrange
  have hframe : ∀ i < frame.length, frame[i]? = some (frame.getD i 0) := fun i hi => by
    rw [List.getD_eq_getElem?_getD, List.getElem?_eq_getElem hi, Option.getD_some]
  have hdec := Decodes.readers (L := (frame.getD · 0)) fields hin hrange
    (.peek rfl exec_uId hlen (.peek rfl exec_uCmd hlen (.peek rfl exec_uHCmd hlen (.chkCrc hlen .nil))))
  obtain ⟨ta, hta⟩ := hdec.afterReset (s := a) (Nat.zero_lt_of_lt hp) hfits fun k i hi => (ha k i hi).trans (hframe i hi)
  obtain ⟨tb, htb⟩ := hdec.afterReset (s := b) (hcap ▸ hp) (hcap ▸ hfits) fun k i hi => (hb k i hi).trans (hframe i hi)
  exact ⟨_, ta, tb, hta, htb⟩

/-! ### A frame built from fields -/

/-- Taking a run apart at its first operation. -/
theorem runAll_cons_eq_some {i : Instr} {rest : List Instr} {s u : State} {ds : List Word32}
    (h : runAll (i :: rest) s = some (ds, u)) : ∃ t d ds', exec i s = .next t ∧ t.response i.port = some ⟨.ok, d⟩ ∧
      runAll rest t = some (ds', u) := by
  simp only [runAll] at h
  split at h
  case h_1 t he =>
    split at h
    case h_1 d hd =>
      obtain ⟨⟨ds', u'⟩, hrun, hds⟩ := Option.map_eq_some_iff.mp h
      cases hds
      exact ⟨t, d, ds', he, hd, hrun⟩
    case h_2 => cases h
  case h_2 => cases h

/-- `new` is what adds of these fields and P.END make of `old`: every earlier stream bit is as it was, the fields read back from where
the first add began and end before the last byte, and the last byte's data bits are the checksum of the others. -/
structure Packer.Finished (old new : Packer) (fields : List (FieldKind × BitVec 32)) : Prop where
  earlier : ∀ k < old.pos, new.streamBit k = old.streamBit k
  values : readValues new.byte old.pos (fields.map Prod.fst) = fields.map fun f => f.1.decoded f.2
  nonempty : 0 < new.length
  inside : old.pos + ((fields.map Prod.fst).map FieldKind.width).sum ≤ 7 * (new.length - 1)
  short : new.length ≤ 1024
  checks : checksum ((List.range (new.length - 1)).map new.byte) = (new.byte (new.length - 1)).setWidth 7

/-- P.END that is answered `OK` finishes a frame with no more fields (42_packer_framing.md R134). -/
theorem execPEnd_finished {s t : State} {d : Word32} (hl : s.packer.Legal s.par.packCap) (h : exec .pEnd s = .next t)
    (hok : t.pResp = some ⟨.ok, d⟩) : s.packer.Finished t.packer [] := by
  change s.finishPacker (s.packer.endFrame s.par.packCap) = .next t at h
  have hcap := s.par.packCap_legal.2
  have hroom : s.packer.length + 1 ≤ s.par.packCap := by
    by_contra hfull
    rw [Packer.endFrame_overflow (Nat.lt_of_not_le hfull)] at h
    cases h; cases hok
  obtain ⟨pk, e, -, hcur, hoff, hread, -, -⟩ := Packer.endFrame_spec hl hcap hroom
  rw [e] at h
  cases h
  change s.packer.Finished pk []
  rw [framingByte_or_setWidth] at hread
  have ⟨_, hoff', _⟩ := hl
  have hfilled := Packer.length_eq _ hoff'
  have hlen : pk.length = s.packer.length + 1 := (Packer.length_of_off_zero hoff).trans hcur
  have hbyte : ∀ i < s.packer.length, pk.byte i = s.packer.byte i := fun i hi =>
    Packer.byte_of_read ((hread i).trans ((if_neg (by omega)).trans (Packer.read_eq hl hi)))
  have hlast := Packer.byte_of_read ((hread _).trans (if_pos rfl))
  refine ⟨fun k hk => ?_, rfl, by omega, ?_, by omega, ?_⟩
  · exact slotBit_congr (by rw [hbyte _ (by rw [hfilled, bytesFor]; omega)])
  · simp only [List.map_nil, List.sum_nil, Nat.add_zero, hlen, hfilled, bytesFor]; omega
  · rw [hlen, Nat.add_sub_cancel, hlast, BitVec.setWidth_append_eq_right]
    exact congrArg checksum (List.map_congr_left fun i hi => hbyte i (List.mem_range.mp hi))

/-- Adds and P.END, all answered `OK`, leave a frame from which the fields read back. -/
theorem runAll_adds_finished (fields : List (FieldKind × BitVec 32)) : ∀ {s t : State} {ds : List Word32},
    runAll ((fields.map fun f => Instr.pAddN f.1.width f.2) ++ [.pEnd]) s = some (ds, t) →
    s.packer.Legal s.par.packCap → s.packer.Finished t.packer fields := by
  induction fields with
  | nil =>
    intro s t ds hrun hl
    obtain ⟨t', d, ds', hexec, hok, hrest⟩ := runAll_cons_eq_some hrun
    cases hrest
    exact execPEnd_finished hl hexec hok
  | cons f fields ih =>
    intro s t ds hrun hl
    obtain ⟨kind, v⟩ := f
    obtain ⟨t', d, ds', hexec, hok, hrest⟩ := runAll_cons_eq_some hrun
    obtain ⟨hroom, rfl⟩ := execPAddN_answered_ok hexec hok
    obtain ⟨hlegal, hfield, -, -⟩ := Packer.depositField_spec v s.par.packCap_legal.2 kind.width hl hroom
    obtain ⟨hearlier, hvalues, hnonempty, hinside, hshort, hchecks⟩ := ih hrest hlegal
    simp only [hfield.pos] at hearlier hvalues hinside
    have hvalue : readBits t.packer.byte s.packer.pos kind.width = v.setWidth kind.width :=
      readBits_eq fun j hj => (hearlier _ (by omega)).trans (hfield.bits j hj)
    refine ⟨fun k hk => (hearlier k (by omega)).trans (hfield.earlier k hk), ?_, hnonempty, ?_, hshort, hchecks⟩
    · simp only [List.map_cons, readValues, hvalue, hvalues, ← kind.decoded_eq]
    · simpa only [List.map_cons, List.sum_cons, Nat.add_assoc] using hinside

/-- The same from a begin operation on, which leaves the Packer `pk`. -/
theorem runAll_frame_finished {begin : Instr} {pk : Packer} {fields : List (FieldKind × BitVec 32)} {s t : State}
    {ds : List Word32} (hl : pk.Legal s.par.packCap) (hbegin : exec begin s = s.finishPacker (.ok pk))
    (hrun : runAll (begin :: ((fields.map fun f => Instr.pAddN f.1.width f.2) ++ [.pEnd])) s = some (ds, t)) :
    pk.Finished t.packer fields := by
  obtain ⟨t', d, ds', hexec, -, hrest⟩ := runAll_cons_eq_some hrun
  rw [hbegin] at hexec
  cases hexec
  exact runAll_adds_finished fields hrest hl

/-- A frame that P.BEGINQ began has the header in the data bits of byte 0 (42_packer_framing.md R130). -/
theorem Packer.Finished.header {pk new : Packer} {hdr : Bits7} {fields : List (FieldKind × BitVec 32)}
    (h : (pk.beginHeader hdr).Finished new fields) (hadded : pk.rewind.FieldAdded (pk.beginHeader hdr) hdr 7) :
    (new.byte 0).setWidth 7 = hdr := by
  have hbits := hadded.bits
  have hpos := hadded.pos
  simp only [Packer.rewind_pos, Nat.zero_add] at hbits hpos
  refine BitVec.eq_of_getLsbD_eq fun i hi => ?_
  rw [BitVec.getLsbD_setWidth, decide_eq_true hi, Bool.true_and, Packer.byte_data new 0 hi, Nat.mul_zero, Nat.zero_add,
    h.earlier _ (by omega), hbits _ (by omega), show 7 - 1 - (6 - i) = i by omega]

/-- The id and the command of a header byte, from its data bits (30_encoding.md R76). -/
theorem extractLsb'_header {b : Byte} {cmd : BitVec 3} {id : BitVec 4} (h : b.setWidth 7 = deviceHeader cmd id) :
    b.extractLsb' 0 4 = id ∧ b.extractLsb' 4 3 = cmd := by
  have hslice : ∀ lo n, lo + n ≤ 7 → b.extractLsb' lo n = (deviceHeader cmd id).extractLsb' lo n := fun lo n hn => by
    rw [← h]
    ext i hi
    simp [show lo + i < 7 by omega]
  exact ⟨(hslice 0 4 (by decide)).trans BitVec.extractLsb'_append_eq_right,
    (hslice 4 3 (by decide)).trans BitVec.extractLsb'_append_eq_left⟩

/-- The checksum and the readers of a finished frame, with the cursor where its first field begins. -/
theorem Packer.Finished.decodes {old new : Packer} {fields : List (FieldKind × BitVec 32)} {q : Nat}
    (h : old.Finished new fields) (hq : old.pos = q) :
    Decodes new.byte new.length q (.uChkCrc new.length :: fields.map fun f => f.1.reader)
      (1 :: fields.map fun f => f.1.decoded f.2) := by
  subst hq
  obtain ⟨-, hvalues, hnonempty, hinside, hshort, hchecks⟩ := h
  have hreaders := Decodes.readers (L := new.byte) (len := new.length) (fields.map Prod.fst) (q := old.pos)
    (by omega) (by omega) .nil
  rw [List.append_nil, List.append_nil, hvalues, List.map_map] at hreaders
  have hdec := Decodes.chkCrc hnonempty hreaders
  rwa [if_pos hchecks] at hdec

/-- Settles O45: P.BEGINQ and P.BEGINA leave a legal Packer, with the header as a field of it or with nothing in it. -/
theorem framesRoundTrip : Obligations.FramesRoundTrip := by
  rintro s t u fields p ds ⟨⟨_, _, _, hwf, _⟩, -⟩ hp hfits hholds adds readers values
  obtain ⟨hlo, hhi⟩ := s.par.packCap_legal
  refine ⟨fun cmd id hrun => ?_, fun hrun => ?_⟩
  · obtain ⟨hlegal, hadded, -, -⟩ := Packer.beginHeader_spec (deviceHeader cmd id) hwf (by omega) hhi
    obtain ⟨-, hpos⟩ := s.packer.beginHeader_pos (deviceHeader cmd id)
    have hfin := runAll_frame_finished hlegal rfl hrun
    obtain ⟨hid, hcmd⟩ := extractLsb'_header (hfin.header hadded)
    have hpeeks := Decodes.peek rfl exec_uId hfin.nonempty (.peek rfl exec_uCmd hfin.nonempty (hfin.decodes hpos))
    rw [hid, hcmd] at hpeeks
    exact hpeeks.afterReset (ptr := 1) hp hfits hholds
  · have hfin := runAll_frame_finished (Packer.rewind_legal hwf) rfl hrun
    exact (hfin.decodes s.packer.rewind_pos).afterReset (ptr := 0) hp hfits hholds

end Sys2Proof.Machine
end

section
/-! SUPPORT. The properties of the checksum (45_checksum.md R204 to R209): the two-segment form, the table form, the values of data bits
that are all 0, the detection of a change of one byte, and the remainder of a polynomial division over GF(2) that it is. -/

namespace Sys2Proof.Machine

/-- The two-segment form goes on from the checksum of the first segment (45_checksum.md R203). -/
theorem checksum2_eq (a b : List Byte) : checksum2 a b = b.foldl crc7Update (checksum a) := rfl

/-- Settles O46: both sides go on from the checksum of the first segment. -/
theorem checksumIgnoresTheSplit : Obligations.ChecksumIgnoresTheSplit := fun a b =>
  (checksum2_eq a b).trans (checksum_append a b).symm

/-! ### The table form -/

/-- An update depends on the exclusive or of the register and the byte's data bits only, as the two are equally wide (R209). -/
theorem crc7Update_eq_zero_xor (c : Bits7) (b : Byte) :
    crc7Update c b = crc7Update 0 ((c ^^^ b.setWidth 7).setWidth 8) := by
  have hdata : (c.setWidth 8 ^^^ b).setWidth 7 = ((c ^^^ b.setWidth 7).setWidth 8).setWidth 7 := by simp
  calc crc7Update c b
      = crc7Update (c ^^^ 0) (0 ^^^ b) := congrArg₂ crc7Update BitVec.xor_zero.symm BitVec.zero_xor.symm
    _ = crc7Update 0 (c.setWidth 8) ^^^ crc7Update 0 b := by rw [crc7Update_xor, crc7Update_zero_byte]
    _ = crc7Update 0 (c.setWidth 8 ^^^ b) := (crc7Update_xor 0 0 _ b).symm
    _ = crc7Update 0 ((c ^^^ b.setWidth 7).setWidth 8) := crc7Update_congr 0 hdata

/-- The printed table holds the updates of an empty register, for each of its 128 entries (R209). -/
theorem checksumTable_entry :
    ∀ x : Bits7, checksumTable[x.toNat]? = some (crc7Update 0 (x.setWidth 8)) := by decide

/-- Settles O47: the table is of the updates of an empty register, to which every update comes down. -/
theorem checksumHasTheTableForm : Obligations.ChecksumHasTheTableForm := fun c b => by
  rw [checksumTable_entry, ← crc7Update_eq_zero_xor]

/-! ### Data bits that are all 0 -/

/-- A byte whose data bits are all 0 leaves an empty register empty. -/
theorem crc7Update_zero_of_dataBits_zero {b : Byte} (h : b.setWidth 7 = 0#7) : crc7Update 0 b = 0 :=
  (crc7Update_congr (b := 0) 0 h).trans (by decide)

/-- The checksum of bytes whose data bits are all 0 (45_checksum.md R207). -/
theorem checksum_eq_zero (bytes : List Byte) (h : ∀ b ∈ bytes, b.setWidth 7 = 0#7) : checksum bytes = 0 := by
  induction bytes with
  | nil => rfl
  | cons b bytes ih =>
    obtain ⟨hb, hbytes⟩ := List.forall_mem_cons.mp h
    calc checksum (b :: bytes)
        = bytes.foldl crc7Update (crc7Update 0 b) := rfl
      _ = checksum bytes := by rw [crc7Update_zero_of_dataBits_zero hb]; rfl
      _ = 0 := ih hbytes

/-- Settles O48: the printed values, `checksum_eq_zero`, and that an update reads data bits only. -/
theorem checksumCornerValues : Obligations.ChecksumCornerValues :=
  ⟨rfl, checksum_eq_zero _ (by decide), by decide, by decide, checksum_eq_zero, fun _ _ => foldl_crc7Update_congr 0⟩

/-! ### A change of one byte -/

/-- A change of the data bits of one byte of a sequence changes the checksum (45_checksum.md R206). -/
theorem checksum_ne_of_byte_ne (before after : List Byte) {x y : Byte} (h : x.setWidth 7 ≠ y.setWidth 7) :
    checksum (before ++ x :: after) ≠ checksum (before ++ y :: after) := by
  rw [checksum_append, checksum_append]
  exact fun e => crc7Update_ne (checksum before) h (foldl_crc7Update_injective after e)

/-- The checksum of one logical byte more is an update. -/
theorem checksum_range_succ (L : Nat → Byte) (n : Nat) :
    checksum ((List.range (n + 1)).map L) = crc7Update (checksum ((List.range n).map L)) (L n) := by
  rw [List.range_succ, List.map_append, checksum_append]; rfl

/-- Logical bytes with the same data bits have the same checksum (45_checksum.md R202). -/
theorem checksum_range_congr {L M : Nat → Byte} {n : Nat} (h : ∀ j < n, (M j).setWidth 7 = (L j).setWidth 7) :
    checksum ((List.range n).map M) = checksum ((List.range n).map L) := by
  refine foldl_crc7Update_congr 0 ?_
  rw [List.map_map, List.map_map]
  exact List.map_congr_left fun j hj => h j (List.mem_range.mp hj)

/-- Logical bytes of which one has other data bits have another checksum (45_checksum.md R206). -/
theorem checksum_range_ne {L M : Nat → Byte} {i n : Nat} (hi : i < n)
    (hothers : ∀ j < n, j ≠ i → (M j).setWidth 7 = (L j).setWidth 7) (hne : (M i).setWidth 7 ≠ (L i).setWidth 7) :
    checksum ((List.range n).map M) ≠ checksum ((List.range n).map L) := by
  induction n with
  | zero => omega
  | succ n ih =>
    rw [checksum_range_succ, checksum_range_succ]
    rcases Nat.lt_succ_iff_lt_or_eq.mp hi with hearlier | rfl
    · rw [crc7Update_congr _ (hothers n (by omega) (by omega))]
      exact fun e => ih hearlier (fun j hj => hothers j (by omega)) (crc7Update_injective _ e)
    · rw [checksum_range_congr fun j hj => hothers j (by omega) (by omega)]
      exact crc7Update_ne _ hne

/-- Logical bytes `L` of which byte `n` holds the checksum of the `n` bytes before it (44_unpacker.md R184). -/
abbrev Checks (L : Nat → Byte) (n : Nat) : Prop := checksum ((List.range n).map L) = (L n).setWidth 7

/-- Framing bits make no difference to the comparison. -/
theorem Checks.congr {L M : Nat → Byte} {n : Nat} (h : Checks L n)
    (hsame : ∀ j < n + 1, (M j).setWidth 7 = (L j).setWidth 7) : Checks M n := by
  rw [Checks, checksum_range_congr fun j hj => hsame j (by omega), hsame n (by omega)]
  exact h

/-- The comparison finds a change of one byte, the last or a covered one (45_checksum.md R206). -/
theorem Checks.not_of_byte_ne {L M : Nat → Byte} {i n : Nat} (h : Checks L n) (hi : i < n + 1)
    (hothers : ∀ j < n + 1, j ≠ i → (M j).setWidth 7 = (L j).setWidth 7)
    (hne : (M i).setWidth 7 ≠ (L i).setWidth 7) : ¬ Checks M n := by
  rcases Nat.lt_succ_iff_lt_or_eq.mp hi with hcovered | rfl
  · rw [Checks, hothers n (by omega) (by omega), ← h]
    exact checksum_range_ne hcovered (fun j hj => hothers j (by omega)) hne
  · rw [Checks, checksum_range_congr fun j hj => hothers j (by omega) (by omega), h]
    exact hne.symm

/-- U.CHKCRC of a length the ring can hold answers whether the frame's checksum byte checks (44_unpacker.md R184). -/
theorem uResp_of_uChkCrc {s t : State} {n : Nat} (hs : s.Legal) (h : n + 1 ≤ s.par.rbCap)
    (hexec : exec (.uChkCrc (n + 1)) s = .next t) :
    t.uResp = some ⟨.ok, if Checks s.logicalByte n then 1 else 0⟩ := by
  obtain ⟨_, hnext, hresp, -⟩ := (checkCrcComparesTheTrailingField s (n + 1) hs).2 n.succ_pos h
  cases hexec.symm.trans hnext
  exact hresp

/-- U.CHKCRC answers 1 only when the frame's checksum byte checks. -/
theorem checks_of_uResp {s t : State} {n : Nat} (hs : s.Legal) (h : n + 1 ≤ s.par.rbCap)
    (hexec : exec (.uChkCrc (n + 1)) s = .next t) (hone : t.uResp = some ⟨.ok, 1⟩) : Checks s.logicalByte n := by
  by_contra hfails
  rw [uResp_of_uChkCrc hs h hexec, if_neg hfails] at hone
  exact absurd hone (by decide)

/-- Settles O49: from the answer 1 the first frame checks; what the second changes decides whether it still does. -/
theorem oneByteChangesAreDetected : Obligations.OneByteChangesAreDetected := by
  refine ⟨fun before after _ _ => checksum_ne_of_byte_ne before after, ?_⟩
  intro s u s' u' len i hs hu hpar hi hlen hexecS hone hexecU hothers
  obtain ⟨n, rfl⟩ := Nat.exists_eq_add_one_of_ne_zero (show len ≠ 0 by omega)
  have hchecks := checks_of_uResp hs hlen hexecS hone
  rw [uResp_of_uChkCrc hu (hpar ▸ hlen) hexecU]
  refine ⟨fun hne => by rw [if_neg (hchecks.not_of_byte_ne hi hothers hne)], fun heq => ?_⟩
  have hsame : ∀ j < n + 1, (u.logicalByte j).setWidth 7 = (s.logicalByte j).setWidth 7 := by
    intro j hj
    rcases eq_or_ne j i with rfl | hji
    · exact heq
    · exact hothers j hj hji
  rw [if_pos (hchecks.congr hsame)]

/-! ### The remainder of a polynomial division -/

open Polynomial

/-- A bit as a polynomial over GF(2). -/
noncomputable abbrev bitPoly (b : Bool) : (ZMod 2)[X] := if b then 1 else 0

/-- A register as a polynomial over GF(2): the coefficient of `x^i` is bit `i` (45_checksum.md R205). -/
noncomputable def regPoly (c : Bits7) : (ZMod 2)[X] := ∑ i ∈ Finset.range 7, if c.getLsbD i then X ^ i else 0

/-- The generator polynomial of the checksum (45_checksum.md R201). -/
noncomputable abbrev crcGenerator : (ZMod 2)[X] := X ^ 7 + X ^ 3 + 1

/-- The polynomial of a bit sequence, the first bit at the highest degree (45_checksum.md R205). -/
noncomputable abbrev messagePoly (bits : List Bool) : (ZMod 2)[X] := bits.foldl (fun m b => m * X + bitPoly b) 0

theorem bitPoly_xor (a b : Bool) : bitPoly (a ^^ b) = bitPoly a + bitPoly b := by
  cases a <;> cases b <;> simp [CharTwo.add_self_eq_zero]

theorem regPoly_eq (c : Bits7) : regPoly c = ∑ i ∈ Finset.range 7, bitPoly (c.getLsbD i) * X ^ i :=
  Finset.sum_congr rfl fun i _ => by rw [ite_mul, one_mul, zero_mul]

theorem regPoly_xor (c d : Bits7) : regPoly (c ^^^ d) = regPoly c + regPoly d := by
  simp only [regPoly_eq, BitVec.getLsbD_xor, bitPoly_xor, add_mul, Finset.sum_add_distrib]

/-- A shift of the register multiplies by `x`, but for the bit it drops. -/
theorem regPoly_shiftLeft (c : Bits7) :
    regPoly (c <<< 1) + bitPoly (c.getLsbD 6) * X ^ 7 = regPoly c * X := by
  have hbit : ∀ i < 6, (c <<< 1).getLsbD (i + 1) = c.getLsbD i := by
    intro i hi
    rw [BitVec.getLsbD_shiftLeft, decide_eq_true (show i + 1 < 7 by omega)]
    rfl
  have hlow : (c <<< 1).getLsbD 0 = false := by simp
  have hsum : ∑ i ∈ Finset.range 6, bitPoly ((c <<< 1).getLsbD (i + 1)) * X ^ (i + 1) =
      (∑ i ∈ Finset.range 6, bitPoly (c.getLsbD i) * X ^ i) * X := by
    rw [Finset.sum_mul]
    exact Finset.sum_congr rfl fun i hi => by rw [hbit i (Finset.mem_range.mp hi), pow_succ, mul_assoc]
  rw [regPoly_eq, regPoly_eq, Finset.sum_range_succ', hsum, hlow, Finset.sum_range_succ (n := 6)]
  simp only [bitPoly, Bool.false_eq_true, if_false, zero_mul, add_zero]
  ring

/-- The generator without its `x^7` term, as a register (45_checksum.md R201). -/
theorem regPoly_generator : regPoly 0x09#7 = X ^ 3 + 1 := by
  simp [regPoly, Finset.sum_range_succ, add_comm]

/-- One bit fed to the register: a multiplication by `x`, the bit at `x^7`, and the generator taken off where `x^7` is set. -/
theorem regPoly_crc7Bit (c : Bits7) (b : Bool) :
    regPoly (crc7Bit c b) + bitPoly (c.getLsbD 6 ^^ b) * crcGenerator = regPoly c * X + bitPoly b * X ^ 7 := by
  have hstep : regPoly (crc7Bit c b) = regPoly (c <<< 1) + bitPoly (c.getLsbD 6 ^^ b) * (X ^ 3 + 1) := by
    unfold crc7Bit
    cases c.getLsbD 6 ^^ b
    case false => simp
    case true => simp [regPoly_xor, regPoly_generator]
  have htwice : ∀ p : (ZMod 2)[X], p + p = 0 := CharTwo.add_self_eq_zero
  rw [hstep, ← regPoly_shiftLeft, bitPoly_xor]
  linear_combination htwice ((bitPoly (c.getLsbD 6) + bitPoly b) * (X ^ 3 + 1))

/-- The checksum feeds the data bits to an empty register one by one (45_checksum.md R201). -/
theorem checksum_eq_foldl_dataBits (bytes : List Byte) : checksum bytes = (dataBits bytes).foldl crc7Bit 0 := by
  rw [dataBits, List.foldl_flatMap]; rfl

/-- The register and the message fed so far agree modulo the generator. -/
theorem crcGenerator_dvd (bits : List Bool) :
    crcGenerator ∣ messagePoly bits * X ^ 7 - regPoly (bits.foldl crc7Bit 0) := by
  induction bits using List.reverseRecOn with
  | nil => simp [regPoly]
  | append_singleton bits b ih =>
    obtain ⟨q, hq⟩ := ih
    have hstep := regPoly_crc7Bit (bits.foldl crc7Bit 0) b
    simp only [messagePoly, List.foldl_append, List.foldl_cons, List.foldl_nil] at hq ⊢
    exact ⟨q * X + bitPoly ((bits.foldl crc7Bit 0).getLsbD 6 ^^ b), by linear_combination hq * X - hstep⟩

theorem crcGenerator_monic : crcGenerator.Monic := by
  unfold crcGenerator; monicity!

theorem degree_crcGenerator : crcGenerator.degree = 7 := by
  unfold crcGenerator; compute_degree!

/-- A register has no term of degree 7 or more. -/
theorem degree_regPoly_lt (c : Bits7) : (regPoly c).degree < 7 := by
  refine (degree_sum_le _ _).trans_lt ((Finset.sup_lt_iff (by decide)).mpr fun i hi => ?_)
  split
  case isTrue => rw [degree_X_pow]; exact_mod_cast Finset.mem_range.mp hi
  case isFalse => rw [degree_zero]; exact WithBot.bot_lt_coe 7

/-- A register that agrees with a polynomial modulo the generator is its remainder. -/
theorem regPoly_eq_modByMonic {c : Bits7} {p : (ZMod 2)[X]} (h : crcGenerator ∣ p - regPoly c) :
    regPoly c = p %ₘ crcGenerator := by
  have hsmall : regPoly c %ₘ crcGenerator = regPoly c :=
    (modByMonic_eq_self_iff crcGenerator_monic).mpr (degree_crcGenerator ▸ degree_regPoly_lt c)
  rw [← hsmall, ← modByMonic_eq_of_dvd_sub crcGenerator_monic h]

/-- Settles O50: the register agrees with the message modulo the generator, and its degree is below the generator's. -/
theorem checksumIsThePolynomialRemainder : Obligations.ChecksumIsThePolynomialRemainder := fun bytes =>
  regPoly_eq_modByMonic (checksum_eq_foldl_dataBits bytes ▸ crcGenerator_dvd (dataBits bytes))

end Sys2Proof.Machine
end

section
/-! SUPPORT. The opcode table (30_encoding.md R97, R104): a request decodes exactly when its command word matches a row. -/

namespace Sys2Proof

open Machine

/-- The row of an operation: its port, its opcode with an immediate field of zeros, and a mask of the opcode and of the bits that
must be zero in its format (30_encoding.md R97, R104). -/
def Instr.row (i : Instr) : OpcodeRow := ⟨i.port, i.opcode ++ 0#10, BitVec.allOnes 6 ++ i.format.zeroMask⟩

theorem Instr.row_mem (i : Instr) : i.row ∈ opcodeRows := by
  cases i <;> (dsimp only [Instr.row, Instr.port, Instr.opcode, Instr.format]; decide)

/-- The command word of a row with zeros under its mask's zeros is an operation's of that row: no row is without one. -/
theorem decode_row_value : ∀ row ∈ opcodeRows, (decode row.port ⟨row.value, 0, 0⟩).map Instr.row = .ok row := by
  decide

theorem exists_row_eq {row : OpcodeRow} (h : row ∈ opcodeRows) : ∃ i : Instr, i.row = row := by
  have hmap := decode_row_value row h
  cases hdecode : decode row.port ⟨row.value, 0, 0⟩ with
  | ok i => rw [hdecode] at hmap; exact ⟨i, Except.ok.inj hmap⟩
  | error e => rw [hdecode] at hmap; cases hmap

/-- A command word matches an operation's row when it has the opcode and sets no must-be-zero bit (30_encoding.md R104). -/
theorem Instr.row_matches_iff {i : Instr} {port : Port} {cw : BitVec 16} : i.row.Matches port cw ↔
    i.port = port ∧ opOf cw = i.opcode ∧ immOf cw &&& i.format.zeroMask = 0 := by
  have hmask : cw &&& i.row.mask = opOf cw ++ (immOf cw &&& i.format.zeroMask) := by
    conv_lhs => rw [← append_opOf_immOf cw, Instr.row, BitVec.and_append, BitVec.and_allOnes]
  simp only [OpcodeRow.Matches, hmask]
  refine and_congr_right fun _ => ⟨fun h => ?_, fun ⟨hop, himm⟩ => by rw [hop, himm]; rfl⟩
  have hop := congrArg opOf h
  have himm := congrArg immOf h
  simp only [opOf_append, immOf_append, Instr.row] at hop himm
  exact ⟨hop, himm⟩

/-- On its own port an opcode's row accepts exactly the immediate fields of its format (30_encoding.md R98). -/
theorem decode_isOk_of_opcode {i : Instr} {r : Request} (h : opOf r.cw = i.opcode) :
    (decode i.port r).isOk = decide (immOf r.cw &&& i.format.zeroMask = 0) := by
  simp only [decode, h, portOfOp_opcode, if_true]
  cases i <;> exact accept_isOk _ _ _

/-- A request decodes when its command word matches a row of the opcode table on its port (60_exceptions.md R222). -/
theorem decode_isOk_iff_matches {port : Port} {r : Request} :
    (decode port r).isOk = true ↔ ∃ row ∈ opcodeRows, row.Matches port r.cw := by
  constructor
  · intro h
    cases hdecode : decode port r with
    | ok i =>
      obtain ⟨hport, -⟩ := decodedRequestReencodes port r i hdecode
      obtain ⟨hop, -, himm, -⟩ := decode_readFrom hdecode
      exact ⟨i.row, i.row_mem, Instr.row_matches_iff.mpr ⟨hport, hop.symm, himm ▸ i.imm_and_zeroMask⟩⟩
    | error e => rw [hdecode] at h; cases h
  · rintro ⟨row, hrow, hmatch⟩
    obtain ⟨i, rfl⟩ := exists_row_eq hrow
    obtain ⟨rfl, hop, himm⟩ := Instr.row_matches_iff.mp hmatch
    exact (decode_isOk_of_opcode hop).trans (decide_eq_true himm)

end Sys2Proof
end

section
/-! SUPPORT. How a request is answered (60_exceptions.md): `ILLEGAL` from the opcode table, every other status from the operation,
and what a status other than `OK` leaves; and the host agents' acts. -/

namespace Sys2Proof.Machine

/-! ### A step with a request pending -/

/-- The operation, or the `ILLEGAL` answer, that a request stands for runs with the acts of the receive engine ready, and when
it has completed they have all landed (20_memory.md R55, log 8). -/
theorem step_request {s t : State} {port : Port} {r : Request} {acts : List Landing} {rest : List Input}
    (hin : s.inputs = .request port r acts :: rest) (hacts : ∀ a ∈ acts, a.index.toNat < s.par.rbCap)
    (h : runRequest port r { s with inputs := rest, landing := acts } = .next t) :
    step s = .next { t with rb := Memory.afterActs s.rb acts, landing := [] } := by
  obtain ⟨_, hc⟩ := runRequest_completesOn port r { s with inputs := rest, landing := acts }
  obtain ⟨hrb, hland, -⟩ := CompletesOn.frame (h ▸ hc)
  rw [step_of_inputs_cons hin, Input.effect, runDuring_eq (s := { s with inputs := rest }) hacts h, hrb, hland]

theorem runRequest_of_decode_ok {port : Port} {r : Request} {i : Instr} (h : decode port r = .ok i) (s : State) :
    runRequest port r s = exec i s := by
  rw [runRequest, h]

/-- Settles O6: a request that decodes runs its operation, which always completes. -/
theorem stepRunsTheDecodedOperation : Obligations.StepRunsTheDecodedOperation := by
  intro s port r acts rest i hin hacts hdecode
  obtain ⟨t, ht⟩ := (exec_completesOn i { s with inputs := rest, landing := acts }).exists_next
  exact ⟨t, ht, step_request hin hacts ((runRequest_of_decode_ok hdecode _).trans ht)⟩

/-! ### Answers -/

/-- The outcome is an answer on this port with this status; if that is not `OK`, RDATA is 0 and the answer is all that was
written (60_exceptions.md R224). -/
def Answers (s : State) (port : Port) (st : Status) (o : Host.Outcome State Fault Refusal) : Prop :=
  ∃ t d, o = .next t ∧ t.response port = some ⟨st, d⟩ ∧ (st ≠ .ok → d = 0 ∧ t = s.answer port st 0)

@[simp] theorem State.answer_response (s : State) (port : Port) (st : Status) (d : Word32) :
    (s.answer port st d).response port = some ⟨st, d⟩ := by
  cases port <;> rfl

theorem Answers.ok {s t : State} {port : Port} {d : Word32} (h : t.response port = some ⟨.ok, d⟩) :
    Answers s port .ok (.next t) :=
  ⟨t, d, rfl, h, fun hne => absurd rfl hne⟩

theorem Answers.raise (s : State) (port : Port) (st : Status) : Answers s port st (s.raise port st) :=
  ⟨_, 0, rfl, s.answer_response port st 0, fun _ => ⟨rfl, rfl⟩⟩

/-- What the receive engine did during an operation lands beside the operation's answer. -/
theorem Answers.afterStep {s : State} {port : Port} {r : Request} {acts : List Landing} {rest : List Input} {st : Status}
    (hin : s.inputs = .request port r acts :: rest) (hacts : ∀ a ∈ acts, a.index.toNat < s.par.rbCap)
    (h : Answers { s with inputs := rest, landing := acts } port st
      (runRequest port r { s with inputs := rest, landing := acts })) :
    Answers { s with inputs := rest, rb := Memory.afterActs s.rb acts, landing := [] } port st (step s) := by
  obtain ⟨t, d, ht, hresp, hfail⟩ := h
  refine ⟨_, d, step_request hin hacts ht, ?_, fun hne => ?_⟩
  · cases port <;> exact hresp
  · obtain ⟨hd, rfl⟩ := hfail hne
    exact ⟨hd, by cases port <;> rfl⟩

/-! ### The answers of the operations -/

/-- The outcome is an answer on this port with a status other than `ILLEGAL`. -/
def AnswersNotIllegal (s : State) (port : Port) (o : Host.Outcome State Fault Refusal) : Prop :=
  ∃ st, st ≠ .illegal ∧ Answers s port st o

theorem AnswersNotIllegal.ok {s t : State} {port : Port} {d : Word32} (h : t.response port = some ⟨.ok, d⟩) :
    AnswersNotIllegal s port (.next t) :=
  ⟨.ok, by decide, .ok h⟩

theorem AnswersNotIllegal.raise (s : State) (port : Port) {st : Status} (h : st ≠ .illegal) :
    AnswersNotIllegal s port (s.raise port st) :=
  ⟨st, h, .raise s port st⟩

/-- The one failure of this sequence of Packer primitives is want of room (60_exceptions.md R220, 41_packer_fields.md R112,
42_packer_framing.md R136). -/
def FailsOnlyByOverflow (r : Except Status Packer) : Prop := ∀ st, r = .error st → st = .overflow

namespace FailsOnlyByOverflow

theorem ok (pk : Packer) : FailsOnlyByOverflow (.ok pk) := fun _ e => nomatch e

theorem ite {c : Prop} [Decidable c] (pk : Packer) : FailsOnlyByOverflow (if c then .ok pk else .error .overflow) := by
  split
  · exact .ok pk
  · exact fun _ e => (Except.error.inj e).symm

theorem addField {w : Nat} (pk : Packer) (cap : Nat) (v : BitVec w) (n : Nat) :
    FailsOnlyByOverflow (pk.addField cap v n) := .ite _

theorem endFrame (pk : Packer) (cap : Nat) : FailsOnlyByOverflow (pk.endFrame cap) := .ite _

theorem endHostFrame (pk : Packer) (cap : Nat) (term : Byte) : FailsOnlyByOverflow (pk.endHostFrame cap term) := .ite _

theorem bind {r : Except Status Packer} {f : Packer → Except Status Packer} (hr : FailsOnlyByOverflow r)
    (hf : ∀ pk, FailsOnlyByOverflow (f pk)) : FailsOnlyByOverflow (r >>= f) := by
  cases r with
  | ok pk => exact hf pk
  | error st => exact hr

/-- A field, then the rest of a builder's sequence (43_packer_composite.md R159). -/
theorem add_bind {w : Nat} {pk : Packer} {cap n : Nat} {v : BitVec w} {f : Packer → Except Status Packer}
    (hf : ∀ pk, FailsOnlyByOverflow (f pk)) : FailsOnlyByOverflow (pk.addField cap v n >>= f) :=
  (addField pk cap v n).bind hf

end FailsOnlyByOverflow

theorem State.finishPacker_answers (s : State) {r : Except Status Packer} (h : FailsOnlyByOverflow r) :
    AnswersNotIllegal s .packer (s.finishPacker r) := by
  cases r with
  | ok pk => exact .ok rfl
  | error st => exact .raise s .packer (h st rfl ▸ by decide)

theorem execPAddN_answers (n : Nat) (v : BitVec 32) (s : State) : AnswersNotIllegal s .packer (execPAddN n v s) := by
  unfold execPAddN
  split
  · exact s.finishPacker_answers (.addField _ _ v n)
  · exact .raise s .packer (by decide)

theorem execPAddBlk_answers (size : Nat) (addr : BitVec 32) (s : State) :
    AnswersNotIllegal s .packer (execPAddBlk size addr s) := by
  unfold execPAddBlk
  split
  · exact .ok rfl
  · exact .raise s .packer (by decide)

theorem execPRdBuf_answers (index : Nat) (s : State) : AnswersNotIllegal s .packer (execPRdBuf index s) := by
  unfold execPRdBuf
  split
  · exact .raise s .packer (by decide)
  · exact .ok rfl

theorem State.readField_answers (s : State) (n : Nat) (ext : BitVec n → Word32) :
    AnswersNotIllegal s .unpacker (s.readField n ext) := by
  unfold State.readField
  dsimp only
  split
  · exact .raise s .unpacker (by decide)
  · exact .ok rfl

theorem execUGetBlk_answers (size : Nat) (addr : BitVec 32) (s : State) :
    AnswersNotIllegal s .unpacker (execUGetBlk size addr s) := by
  unfold execUGetBlk
  dsimp only
  split
  · exact .raise s .unpacker (by decide)
  · exact .ok rfl

theorem execUChkCrc_answers (len : Nat) (s : State) : AnswersNotIllegal s .unpacker (execUChkCrc len s) := by
  unfold execUChkCrc
  split <;> exact .ok rfl

/-- An operation that decoded is never answered `ILLEGAL`, and one that fails has written nothing (60_exceptions.md R222, R224). The
Packer's are grouped by their sequence of primitives: none that can fail, an add, an end, a builder of one, two or three adds. -/
theorem exec_answers (i : Instr) (s : State) : AnswersNotIllegal s i.port (exec i s) := by
  cases i with
  | pAddN n v => exact execPAddN_answers n v s
  | pAddBlk size addr => exact execPAddBlk_answers size addr s
  | pRdBuf index => exact execPRdBuf_answers index s
  | pBeginQ | pBeginA | pHBeginQ | pHBeginA => exact s.finishPacker_answers (.ok _)
  | pAdd8 | pAdd16 | pAdd32 | pAddF => exact s.finishPacker_answers (.addField _ _ _ _)
  | pEnd | pMkQInfo => exact s.finishPacker_answers (.endFrame _ _)
  | pHEnd => exact s.finishPacker_answers (.endHostFrame _ _ _)
  | pMkQCtrl | pMkAWrite | pMkQRead | pMkARead => exact s.finishPacker_answers (.add_bind fun _ => .endFrame _ _)
  | pMkACtrl | pMkQWrite | pMkQFlash =>
    exact s.finishPacker_answers (.add_bind fun _ => .add_bind fun _ => .endFrame _ _)
  | pMkAInfo =>
    exact s.finishPacker_answers (.add_bind fun _ => .add_bind fun _ => .add_bind fun _ => .endFrame _ _)
  | uGetU8 | uGetI8 | uGetU16 | uGetI16 | uGetI32 => exact s.readField_answers _ _
  | uGetBlk size addr => exact execUGetBlk_answers size addr s
  | uChkCrc len => exact execUChkCrc_answers len s
  | pLen | uReset | uId | uCmd | uHCmd => exact .ok rfl

/-- A request that decodes is answered, as its operation is, on the port it was presented on (30_encoding.md R96). -/
theorem runRequest_decoded_answers {port : Port} {r : Request} {i : Instr} (h : decode port r = .ok i) (s : State) :
    AnswersNotIllegal s port (runRequest port r s) := by
  obtain ⟨rfl, -⟩ := decodedRequestReencodes port r i h
  exact runRequest_of_decode_ok h s ▸ exec_answers i s

/-- A request that does not decode is answered `ILLEGAL` (60_exceptions.md R222). -/
theorem runRequest_rejected_answers {port : Port} {r : Request} {e : Reject} (h : decode port r = .error e) (s : State) :
    Answers s port .illegal (runRequest port r s) := by
  rw [runRequest, h]
  exact .raise s port .illegal

theorem runRequest_answers (port : Port) (r : Request) (s : State) : ∃ st, Answers s port st (runRequest port r s) := by
  cases h : decode port r with
  | ok i =>
    obtain ⟨st, -, hans⟩ := runRequest_decoded_answers h s
    exact ⟨st, hans⟩
  | error e => exact ⟨.illegal, runRequest_rejected_answers h s⟩

/-- The status codes are 0 to 4 (60_exceptions.md R220). -/
theorem Status.code_le (st : Status) : st.code.toNat ≤ 4 := by
  cases st <;> decide

/-- Settles O8: every request is answered, and the engine's acts land beside the answer. -/
theorem failedRequestWritesNothing : Obligations.FailedRequestWritesNothing := by
  intro s port r acts rest hin hacts
  obtain ⟨st, hans⟩ := runRequest_answers port r { s with inputs := rest, landing := acts }
  obtain ⟨t, d, ht, hresp, hfail⟩ := hans.afterStep hin hacts
  exact ⟨t, ⟨st, d⟩, ht, hresp, st.code_le, hfail⟩

/-- Settles O4: what matches no row does not decode, and what matches one is answered as its operation is. -/
theorem illegalExactlyOffTheOpcodeMap : Obligations.IllegalExactlyOffTheOpcodeMap := by
  intro s port r acts rest hin hacts
  rw [← decode_isOk_iff_matches]
  cases hdecode : decode port r with
  | error e =>
    refine ⟨fun _ => ?_, nofun⟩
    obtain ⟨t, d, ht, -, hfail⟩ := (runRequest_rejected_answers hdecode _).afterStep hin hacts
    obtain ⟨-, rfl⟩ := hfail (by decide)
    exact ht
  | ok i =>
    obtain ⟨row, hrow, hmatch⟩ : ∃ row ∈ opcodeRows, row.Matches port r.cw :=
      decode_isOk_iff_matches.mp (by rw [hdecode]; rfl)
    refine ⟨fun hno => absurd hmatch (hno row hrow), fun _ => ?_⟩
    obtain ⟨st, hst, hans⟩ := runRequest_decoded_answers hdecode { s with inputs := rest, landing := acts }
    obtain ⟨t, d, ht, hresp, -⟩ := hans.afterStep hin hacts
    exact ⟨t, ⟨st, d⟩, ht, hresp, hst⟩

/-! ### Agents on the host memory -/

/-- A byte of the host memory whose value is known and that no agent is writing (20_memory.md R60). -/
theorem State.hostByte_of_read {s : State} {base : Word32} {i a : Nat} {b : Byte} (ha : hostAddress base i = a)
    (hquiet : a ∉ s.hmBusy) (h : Memory.read s.hm a = some b) : s.hostByte base i = b := by
  subst ha
  exact (State.hostByte_quiet hquiet).trans (State.hostContent_of_read h)

/-- Settles O18: the write ends the writing of its own byte and of no other. -/
theorem hostAgentBytesAreRead : Obligations.HostAgentBytesAreRead := by
  intro s addr value rest
  refine ⟨fun hin => ⟨_, step_of_inputs_cons hin, rfl, fun base i hi => ?_, fun a ha => ⟨?_, ?_⟩⟩,
    fun hin => ⟨_, step_of_inputs_cons hin, rfl, ?_, fun a ha => ?_⟩⟩
  · exact State.hostByte_of_read hi (by simp) (Memory.read_write_same s.hm addr.toNat value)
  · exact Memory.read_write_ne s.hm value ha
  · simp [ha]
  · exact mem_insertAddress.mpr (.inl rfl)
  · exact mem_insertAddress.trans (or_iff_right ha)

end Sys2Proof.Machine
end

section
/-! SUPPORT. What no step changes, and the state the reset input leaves (70_reset_and_hazards.md). -/

namespace Sys2Proof.Machine

/-! ### The parameters -/

/-- Whatever a request is answered, and whatever the receive engine does during it, the parameters stay. -/
theorem runDuring_runRequest_par {acts : List Landing} {port : Port} {r : Request} {s t : State}
    (h : runDuring acts (runRequest port r) s = .next t) : t.par = s.par := by
  obtain ⟨-, u, hu, rfl⟩ := runDuring_eq_next h
  obtain ⟨_, hc⟩ := runRequest_completesOn port r { s with landing := acts }
  obtain ⟨-, -, hpar, -⟩ := CompletesOn.frame (hu ▸ hc)
  exact hpar

theorem engineWrites_par {index : BitVec 16} {value : Byte} {s t : State} (h : engineWrites index value s = .next t) :
    t.par = s.par := by
  rcases Nat.lt_or_ge index.toNat s.par.rbCap with hin | hout
  · rw [engineWrites_inside hin] at h; cases h; rfl
  · rw [engineWrites_outside hout] at h; cases h

theorem engineInvalidates_par {index : BitVec 16} {s t : State} (h : engineInvalidates index s = .next t) :
    t.par = s.par := by
  rcases Nat.lt_or_ge index.toNat s.par.rbCap with hin | hout
  · rw [engineInvalidates_inside hin] at h; cases h; rfl
  · rw [engineInvalidates_outside hout] at h; cases h

/-- No input changes a parameter. -/
theorem Input.effect_par {input : Input} {s t : State} (h : input.effect s = .next t) : t.par = s.par := by
  cases input with
  | request port r acts => exact runDuring_runRequest_par h
  | ringWrite index value => exact engineWrites_par h
  | ringInvalid index => exact engineInvalidates_par h
  | hostWrite addr value => cases h; rfl
  | hostInvalid addr => cases h; rfl
  | reset => cases h; rfl

/-- A step does nothing, or is the effect of the nearest input; neither changes a parameter (00_scope.md R7). -/
theorem step_par {s t : State} (h : step s = .next t) : t.par = s.par := by
  cases hin : s.inputs with
  | nil =>
    rw [step_of_inputs_nil hin] at h
    cases h; rfl
  | cons input rest =>
    rw [step_of_inputs_cons hin] at h
    exact Input.effect_par (s := { s with inputs := rest }) h

/-- Settles O15: both length tables are computed from the parameters alone. -/
theorem parametersAndLengthTablesAreConstant : Obligations.ParametersAndLengthTablesAreConstant := by
  intro s t h
  have hpar := step_par h
  exact ⟨hpar, congrArg Config.queryLength hpar, congrArg Config.answerLength hpar⟩

/-! ### The reset input -/

/-- Settles O16: the step is `applyReset`, which lists no byte of PBUF. -/
theorem resetInputClearsTheCursors : Obligations.ResetInputClearsTheCursors := by
  intro s rest hin
  exact ⟨_, step_of_inputs_cons hin, rfl, rfl, rfl, rfl, rfl, Memory.read_nil, rfl, rfl, rfl⟩

end Sys2Proof.Machine
end
